-- ==== Sys2Proof/Word.lean ====
section
/-! DEFINITION. Bit vectors, their integers and their written list form (00_scope.md R15, R16, R17). -/

namespace Sys2Proof

/-- A bit vector of length `n`; bit `i` of the spec's `v` is `v.getLsbD i` (R15). -/
abbrev Bits (n : Nat) := BitVec n

/-- `val(v)`, the unsigned integer of a bit vector (R16). -/
abbrev val {n : Nat} (v : Bits n) : Nat := v.toNat

/-- `bits_n(x)`, the vector of length `n` of an integer (R16); above `2^n` it keeps the low bits. -/
abbrev bitsOf (n x : Nat) : Bits n := BitVec.ofNat n x

end Sys2Proof
end

