-- ==== Sys2Proof/Syntax.lean ====
section
/-! DEFINITION. The instructions of spec/opcode_table.json, the layer kinds and the two directions. -/

namespace Sys2Proof

/-- The six layer operations and the three host commands (R3, R60, R61). No operation has an operand (R53). -/
inductive Instr where
  | subE      -- SUB.E, R73
  | permE     -- PERM.E, R82
  | whtE      -- WHT.E, R92
  | subD      -- SUB.D, R74
  | permD     -- PERM.D, R83
  | whtD      -- WHT.D, R93
  | startEnc  -- START.ENC, R103
  | startDec  -- START.DEC, R104
  | nop       -- NOP, R105
  deriving DecidableEq, Repr

/-- The three layer variants (R54). -/
inductive Kind where
  | sub
  | perm
  | wht
  deriving DecidableEq, Repr

/-- The direction of an operation, the register DIR (R26): 0 encrypt, 1 decrypt. -/
inductive Dir where
  | enc
  | dec
  deriving DecidableEq, Repr

/-- The named host registers (R37, R65); numbers 5 to 7 are reserved. -/
inductive HostReg where
  | ctrl
  | status
  | st
  | mk
  | klen
  deriving DecidableEq, Repr

/-- The number `sel` of a host register (R37). -/
def HostReg.sel : HostReg → Bits 3
  | .ctrl => 0
  | .status => 1
  | .st => 2
  | .mk => 3
  | .klen => 4

/-- An encoded instruction in its format: `layer` is the 3-bit effective opcode of format LD (R55),
`command` the value a host writes to CTRL, format CMD (R56). -/
inductive Code where
  | layer (op : Bits 3)
  | command (v : Nat)
  deriving DecidableEq, Repr

/-- The assembler's name (R65). -/
def Instr.mnemonic : Instr → String
  | .subE => "SUB.E"
  | .permE => "PERM.E"
  | .whtE => "WHT.E"
  | .subD => "SUB.D"
  | .permD => "PERM.D"
  | .whtD => "WHT.D"
  | .startEnc => "START.ENC"
  | .startDec => "START.DEC"
  | .nop => "NOP"

end Sys2Proof
end

