-- ==== Sys2Proof/Config.lean ====
section
/-! DEFINITION. The implementation parameters (00_scope.md section 3) and the free values of the model. -/

namespace Sys2Proof

/-- The raw parameters of an engine (R6 to R14), before the CFG_ checks of R119.
`KSTRIDE`, `KSIZE` and `L` are kept as separate parameters although R88 gives one schedule
(DESIGN CHOICE, safe, log entry 7); the round count R is the argument of STD(R), not a field
(DESIGN CHOICE, safe, log entry 16). -/
structure Params where
  /-- block length, R6 -/
  L : Nat
  /-- S-box width, R7 -/
  k : Nat
  /-- S-boxes in a substitution layer, R7 -/
  N : Nat
  /-- `SB[0] .. SB[N-1]`, one table per chunk position, R9 -/
  sb : List (List Nat)
  /-- the permutation map `P`, source bit index to destination bit index, R10 -/
  perm : List Nat
  /-- key-schedule stride, R11 -/
  kstride : Nat
  /-- round-key length, R11 -/
  ksize : Nat
  /-- the layer space `LAYERS`, 2-bit descriptors, R14, R38 -/
  layers : List (Bits 2)
  /-- width of MK, R13 -/
  mkw : Nat
  /-- width of KLEN, R13 -/
  klw : Nat
  /-- width of RC, R13 -/
  rcw : Nat
  /-- width of LP, R13 -/
  lpw : Nat
  deriving DecidableEq, Repr

/-- The wiring of the built engine: any bijection of the 16 bit indices (R10, U8: an open parameter).
DESIGN CHOICE, safe, log entry 6: it has no body, so nothing can be proved of a particular map. -/
opaque Config.wiring : Equiv.Perm (Fin 16)

/-- The free values (U1, U2): the `n`-th draw, as a vector of length `w`. No body, so nothing can be
proved of a draw (DESIGN CHOICE, safe, log entry 4). -/
opaque Config.freeBits (w n : Nat) : Bits w

/-- What the key schedule gives where no rule gives a round key (R97): a vector of length `n`, of the master
key's length and value and the round number. No body, so nothing can be proved of it (DESIGN CHOICE, safe, log
entry 20). -/
opaque Config.freeRoundKey (n keyLength key r : Nat) : Bits n

end Sys2Proof
end

