-- ==== Sys2Proof/Decode.lean ====
section
/-! DEFINITION. The two encoded formats of 30_encoding.md: decoding, total and refusing by name, then
encoding. -/

namespace Sys2Proof

/-- Why a code is no instruction. -/
inductive DecodeError where
  /-- descriptor `kind = 0b00`, illegal (R54, R62) -/
  | illegalKind
  deriving DecidableEq, Repr

/-- The layer kind of a 2-bit descriptor (R54); `none` is the illegal `0b00` (R62). -/
def decodeKind (d : Bits 2) : Option Kind :=
  match d.toNat with
  | 1 => some .sub
  | 2 => some .perm
  | 3 => some .wht
  | _ => none

/-- The descriptor of a layer kind (R54). -/
def encodeKind : Kind → Bits 2
  | .sub => 0b01
  | .perm => 0b10
  | .wht => 0b11

/-- The bit DIR as the effective opcode and STATUS carry it (R26, R55). -/
def Dir.bit : Dir → Bits 1
  | .enc => 0
  | .dec => 1

/-- The layer operation of a kind in a direction (R60, R106). -/
def layerInstr : Dir → Kind → Instr
  | .enc, .sub => .subE
  | .enc, .perm => .permE
  | .enc, .wht => .whtE
  | .dec, .sub => .subD
  | .dec, .perm => .permD
  | .dec, .wht => .whtD

/-- The effective opcode: `op[2] = DIR`, `op[1:0] = kind` (R55). -/
def effectiveOpcode (d : Dir) (kind : Bits 2) : Bits 3 :=
  d.bit ++ kind

/-- The map of effective opcodes (R60). -/
def decodeOpcode (op : Bits 3) : Except DecodeError Instr :=
  match op.toNat with
  | 1 => .ok .subE
  | 2 => .ok .permE
  | 3 => .ok .whtE
  | 5 => .ok .subD
  | 6 => .ok .permD
  | 7 => .ok .whtD
  | _ => .error .illegalKind

/-- The map of command words, from bits 1:0 alone (R61, R102). -/
def decodeCommand (v : Nat) : Instr :=
  if v.testBit 0 then
    if v.testBit 1 then .startDec else .startEnc
  else .nop

/-- Decoding in both formats. -/
def decode : Code → Except DecodeError Instr
  | .layer op => decodeOpcode op
  | .command v => .ok (decodeCommand v)

/-- The code of an instruction, reserved bits zero (R60, R61, R65). -/
def encode : Instr → Code
  | .subE => .layer 0b001
  | .permE => .layer 0b010
  | .whtE => .layer 0b011
  | .subD => .layer 0b101
  | .permD => .layer 0b110
  | .whtD => .layer 0b111
  | .startEnc => .command 0x1
  | .startDec => .command 0x3
  | .nop => .command 0x0

/-- The code of a row of spec/opcode_table.json whose bits are `w`: a row shorter than the 32 bits that the
table gives a command word is in format LD (3 bits), another in format CMD (DEDUCED, safe, log entry 15). -/
def tableCode (nbits w : Nat) : Code :=
  if nbits < 32 then .layer (BitVec.ofNat 3 w) else .command w

/-- What the decoder reads from an instruction whose bits are `w`. -/
def decodeTableWord (nbits w : Nat) : Option Instr :=
  match decode (tableCode nbits w) with
  | .ok i => some i
  | .error _ => none

end Sys2Proof
end

