-- ==== Sys2Proof/Machine/Construction.lean ====
section
/-! DEFINITION. What is fixed when an engine is built: the derived parameters, the inverse tables, the
standard layer sequence, the ten CFG_ checks and the reference parameters. -/

namespace Sys2Proof

/-! ### Derived parameters -/

/-- `NL`, the number of layers (R8, R99). -/
def Params.nl (p : Params) : Nat := p.layers.length

/-- The kinds of the layers, in order (R14). On a sequence that passes CFG_LAYER_KIND no entry is lost
(DESIGN CHOICE, safe, log entry 18). -/
def Params.kinds (p : Params) : List Kind := p.layers.filterMap decodeKind

/-- The number of `WHT` entries among `LAYERS[0 .. i-1]` (R33). -/
def Params.whtBefore (p : Params) (i : Nat) : Nat :=
  (p.layers.take i).countP (fun d => decodeKind d == some .wht)

/-- `NW`, the total round count: the number of `WHT` entries (R101). -/
def Params.nw (p : Params) : Nat := p.whtBefore p.nl

/-- `KEND = KSTRIDE * (NW - 1) + KSIZE` (R12). With `NW = 0` the subtraction stops at 0
(DEDUCED, safe, log entry 8). -/
def Params.kend (p : Params) : Nat := p.kstride * (p.nw - 1) + p.ksize

/-- `BUSW = max(L, MKW, 8)`, the width of the host data bus (R13). -/
def Params.busw (p : Params) : Nat := max p.L (max p.mkw 8)

/-- `SB[i]` (R9, R39). -/
def Params.forwardTable (p : Params) (i : Nat) : List Nat := p.sb.getD i []

/-- The inverse of a table: entry `y` is the `x` whose entry is `y` (R68). -/
def inverseTable (k : Nat) (table : List Nat) : List Nat :=
  (List.range (2 ^ k)).map fun y => table.idxOf y

/-- `INV[i]` (R68). -/
def Params.backwardTable (p : Params) (i : Nat) : List Nat :=
  inverseTable p.k (p.forwardTable i)

/-- `P[s]`, the destination of source bit `s` (R79). -/
def Params.dest (p : Params) (s : Nat) : Nat := p.perm.getD s 0

/-- `PINV[d]`, the source of destination bit `d` (R80). -/
def Params.source (p : Params) (d : Nat) : Nat := p.perm.idxOf d

/-! ### The layer sequence (R66, R99) -/

/-- `ROUND` = `WHT; SUB; PERM` (R66). -/
def roundLayers : List (Bits 2) := [encodeKind .wht, encodeKind .sub, encodeKind .perm]

/-- `FINAL` = `WHT; SUB; WHT` (R66). -/
def finalLayers : List (Bits 2) := [encodeKind .wht, encodeKind .sub, encodeKind .wht]

/-- `STD(R)`: `R - 1` times `ROUND`, then `FINAL`, for `R >= 1` (R99). The spec requires `R >= 1` (R8) and
says nothing of `R = 0` (N9); here it gives the empty sequence, which CFG_NONEMPTY refuses (DESIGN CHOICE,
safe, log entry 19). -/
def stdLayers : Nat → List (Bits 2)
  | 0 => []
  | r + 1 => (List.replicate r roundLayers).flatten ++ finalLayers

/-! ### The ten checks (R119) -/

/-- The construction-time causes of ValidationError (R118). -/
inductive CfgCause where
  | sboxLen | sboxRange | sboxDistinct | subWidth | permBij
  | layerLen | layerKind | nonempty | ksize | mkw
  deriving DecidableEq, Repr

/-- `CFG_SBOX_LEN`: each table has `2^k` entries (R67). -/
def Params.sboxLen (p : Params) : Bool := p.sb.all fun t => t.length == 2 ^ p.k

/-- `CFG_SBOX_RANGE`: each entry is below `2^k` (R67). -/
def Params.sboxRange (p : Params) : Bool := p.sb.all fun t => t.all fun x => decide (x < 2 ^ p.k)

/-- `CFG_SBOX_DISTINCT`: no value occurs twice in a table (R67). -/
def Params.sboxDistinct (p : Params) : Bool := p.sb.all fun t => decide t.Nodup

/-- `CFG_SUB_WIDTH`: `N` tables of width `k`, and `k * N = L` (R75). -/
def Params.subWidth (p : Params) : Bool := p.sb.length == p.N && p.k * p.N == p.L

/-- `CFG_PERM_BIJ`: the map is a bijection of `[0, L)` (R79). -/
def Params.permBij (p : Params) : Bool :=
  p.perm.length == p.L && (p.perm.all fun d => decide (d < p.L)) && decide p.perm.Nodup

/-- `CFG_KSIZE`: `KSIZE = L` (R90, R119). -/
def Params.ksizeOk (p : Params) : Bool := p.ksize == p.L

/-- `CFG_LAYER_LEN`: every layer has the cipher's length, which reduces to the three checks named in
R100. -/
def Params.layerLen (p : Params) : Bool := p.subWidth && p.permBij && p.ksizeOk

/-- `CFG_LAYER_KIND`: no descriptor is illegal (R100). -/
def Params.layerKind (p : Params) : Bool := p.layers.all fun d => (decodeKind d).isSome

/-- `CFG_NONEMPTY`: `NL >= 1` (R100). -/
def Params.nonempty (p : Params) : Bool := decide (1 ≤ p.nl)

/-- `CFG_MKW`: the widths of R13 are large enough (R119). The bound on BUSW always holds, since R13 gives its
value. -/
def Params.mkwOk (p : Params) : Bool :=
  decide (p.kend ≤ p.mkw) && decide (p.mkw < 2 ^ p.klw) && decide (p.nw + 1 < 2 ^ p.rcw) &&
  decide (p.nl < 2 ^ p.lpw) && decide (max p.L (max p.mkw 8) ≤ p.busw)

/-- One check by its name. -/
def Params.passes (p : Params) : CfgCause → Bool
  | .sboxLen => p.sboxLen
  | .sboxRange => p.sboxRange
  | .sboxDistinct => p.sboxDistinct
  | .subWidth => p.subWidth
  | .permBij => p.permBij
  | .layerLen => p.layerLen
  | .layerKind => p.layerKind
  | .nonempty => p.nonempty
  | .ksize => p.ksizeOk
  | .mkw => p.mkwOk

/-- The ten causes in the order of R118's table, which is the order in which `construct` tries them
(DESIGN CHOICE, safe, log entry 14). -/
def CfgCause.inOrder : List CfgCause :=
  [.sboxLen, .sboxRange, .sboxDistinct, .subWidth, .permBij, .layerLen, .layerKind, .nonempty,
    .ksize, .mkw]

/-! ### Reference data -/

/-- The default 4-bit S-box (R9, R72). -/
def defaultSbox : List Nat :=
  [0xC, 0x5, 0x6, 0xB, 0x9, 0x0, 0xA, 0xD, 0x3, 0xE, 0xF, 0x8, 0x4, 0x7, 0x1, 0x2]

/-- The parameters of `SPN16` with round count `r` and wiring `perm`; `r = 4` is the reference
configuration SPN16-R4 (00_scope.md section 3, D1). -/
def spn16Params (r : Nat) (perm : List Nat) : Params where
  L := 16
  k := 4
  N := 4
  sb := List.replicate 4 defaultSbox
  perm := perm
  kstride := 4
  ksize := 16
  layers := stdLayers r
  mkw := 32
  klw := 8
  rcw := 3
  lpw := 4

/-- The map of a permutation of the 16 bit indices as a list, source to destination (R79). -/
def wiringList (w : Equiv.Perm (Fin 16)) : List Nat := (List.finRange 16).map fun s => (w s).val

end Sys2Proof
end

