-- ==== Sys2Proof/WellFormed.lean ====
section
/-! DEFINITION. Well-formedness. No instruction has an operand (R53), so every term of `Instr` is well
formed; what can be ill formed is a configuration, which is refused at construction (R119). -/

namespace Sys2Proof

/-- All ten CFG_ checks pass (R119). -/
def Params.WellFormed (p : Params) : Bool := CfgCause.inOrder.all p.passes

/-- A configuration with the proof that every CFG_ check passes, as R119 asks of a model. -/
structure Config extends Params where
  /-- every check of R119 passes -/
  wf : toParams.WellFormed = true
  deriving DecidableEq, Repr

/-- The first check, in the table's order, that fails (R118). -/
def Params.firstCause (p : Params) : Option CfgCause :=
  CfgCause.inOrder.find? fun c => !p.passes c

/-- Construction: an engine's configuration, or the ValidationError that refuses it (R119, C5). -/
def construct (p : Params) : Except CfgCause Config :=
  if h : p.WellFormed = true then .ok { toParams := p, wf := h }
  else .error (p.firstCause.getD .mkw)

/-- Every check of SPN16 but the two about the wiring, for the round counts that MKW = 32 admits. -/
theorem spn16_other_checks :
    ∀ r : Fin 4, ∀ c, c ≠ .permBij → c ≠ .layerLen →
      (spn16Params (r + 1) []).passes c = true := by
  intro r c
  cases c <;> revert r <;> decide

/-- The wiring enters SPN16's checks only through CFG_PERM_BIJ. -/
theorem spn16_passes_of_perm (r : Fin 4) (l : List Nat)
    (h : (spn16Params (r + 1) l).permBij = true) (c : CfgCause) :
    (spn16Params (r + 1) l).passes c = true := by
  by_cases hp : c = .permBij
  · exact hp ▸ h
  by_cases hl : c = .layerLen
  · subst hl
    simp only [Params.passes, Params.layerLen, h]
    rfl
  rw [← spn16_other_checks r c hp hl]
  cases c <;> first | rfl | contradiction

/-- A bijection of the 16 bit indices, as a list, passes CFG_PERM_BIJ. -/
theorem spn16_permBij (r : Nat) (w : Equiv.Perm (Fin 16)) :
    (spn16Params r (wiringList w)).permBij = true := by
  have hnd : (wiringList w).Nodup :=
    (List.nodup_finRange 16).map fun a b h => w.injective (Fin.ext h)
  have hlt : ∀ d ∈ wiringList w, d < 16 := by
    intro d hd
    obtain ⟨s, -, rfl⟩ := List.mem_map.1 hd
    exact (w s).isLt
  simp only [Params.permBij, spn16Params, Bool.and_eq_true, beq_iff_eq, List.all_eq_true]
  exact ⟨⟨by simp [wiringList], fun d hd => decide_eq_true (hlt d hd)⟩, decide_eq_true hnd⟩

/-- SPN16 with 1 to 4 rounds passes every check, whatever bijection the wiring is. -/
theorem spn16_wellFormed (r : Fin 4) (w : Equiv.Perm (Fin 16)) :
    (spn16Params (r + 1) (wiringList w)).WellFormed = true :=
  List.all_eq_true.2 fun c _ => spn16_passes_of_perm r _ (spn16_permBij (r + 1) w) c

/-- SPN16 with `r + 1` rounds (1 to 4, as many as `MKW = 32` admits) and wiring `w`. -/
def spn16 (r : Fin 4) (w : Equiv.Perm (Fin 16)) : Config where
  toParams := spn16Params (r + 1) (wiringList w)
  wf := spn16_wellFormed r w

/-- The built engine: SPN16-R4 with the unconstrained wiring (D1, D2; DESIGN CHOICE, safe, log entry 6). -/
def builtConfig : Config := spn16 3 Config.wiring

end Sys2Proof
end

