-- ==== Sys2Proof/Machine/State.lean ====
section
/-! DEFINITION. The state of the machine: the eight registers of R31, the configuration, and the model's
own three fields; the reasons a step can stop; the state after reset. -/

namespace Sys2Proof.Machine

/-- The run status PHASE (R27). -/
inductive Phase where
  | idle
  | run
  | done
  | err
  deriving DecidableEq, Repr

/-- The error cause ECODE (R28); `reserved` is the value `0b11`, which no rule produces. -/
inductive ECode where
  | none
  | keyShort
  | keyRange
  | reserved
  deriving DecidableEq, Repr

/-- One move of one agent (R20), on a data bus of `w` bits: an engine turn, one of the host's two
register accesses (R42, R43), or reset (R135). The host has no other move (U11). -/
inductive Move (w : Nat) where
  | engine
  | read (sel : Bits 3)
  | write (sel : Bits 3) (v : Bits w)
  | reset
  deriving DecidableEq, Repr

/-- Why the machine stops. Validation errors are not among these: they are next states (R122). -/
inductive Fault where
  /-- Raised by a layer operation whose index falls outside `LAYERS` (R38: such a fetch "cannot happen
  and has no defined behaviour"). Safe: no run from reset reaches it (log entry 10). -/
  | fetchOutsideSequence
  deriving DecidableEq, Repr

/-- Why a step has no meaning. -/
inductive Refusal where
  /-- Raised only by an arm of `exec` whose instruction has no meaning yet. Safe. -/
  | notModelled (mnemonic : String)
  /-- Raised by the engine's step on a fetched descriptor `0b00` (R62, U4: "refuse"). Safe: a
  configuration that passes CFG_LAYER_KIND holds none (log entry 10). -/
  | illegalDescriptor
  /-- Raised by `WHT.E` and `WHT.D` when RC is outside `1 .. NW`, where no round key is defined (R97, U6:
  "refuse"). Safe: no run from reset reaches it (log entry 9). -/
  | roundUndefined
  /-- Raised by a layer operation asked for while PHASE is not RUN, when the engine has no step (R20,
  R106). Safe: `step` asks for one only while PHASE is RUN (log entry 10). -/
  | engineNotEnabled
  deriving DecidableEq, Repr

/-- The machine's state. Two agents act on the eight registers (R31); which moves next is `agenda`. -/
structure State where
  build ::
  /-- The configuration, which no step changes (R19; DESIGN CHOICE, safe, log entry 1). -/
  cfg : Config
  /-- ST, the state register (R21). -/
  st : Bits cfg.L
  /-- MK, the master-key register (R22). -/
  mk : Bits cfg.mkw
  /-- KLEN, the key-length register (R23). -/
  klen : Bits cfg.klw
  /-- RC, the round counter (R24). -/
  rc : Bits cfg.rcw
  /-- LP, the layer pointer, the program counter (R25). -/
  lp : Bits cfg.lpw
  /-- DIR, the direction bit (R26). -/
  dir : Dir
  /-- PHASE, the run status (R27). -/
  phase : Phase
  /-- ECODE, the error cause (R28). -/
  ecode : ECode
  /-- The model's own: the moves to come, in order (DESIGN CHOICE, safe, log entry 2). -/
  agenda : List (Move cfg.busw)
  /-- The model's own: the read-data port of R136, what the last host read returned (DESIGN CHOICE,
  unsafe before the first read, log entry 3). -/
  rdata : Bits cfg.busw
  /-- The model's own: how many free values have been drawn (DESIGN CHOICE, safe, log entry 4). -/
  draws : Nat
  deriving DecidableEq, Repr

/-- An engine of configuration `c` right after reset (R34, R135): nothing runs and the host has no move
planned. R34 leaves ST and MK unspecified; here they are 0 (DESIGN CHOICE, unsafe, log entry 5). -/
def State.initial (c : Config) : State where
  cfg := c
  st := 0
  mk := 0
  klen := 0
  rc := 0
  lp := 0
  dir := .enc
  phase := .idle
  ecode := .none
  agenda := []
  rdata := 0
  draws := 0

/-- The built engine right after reset. -/
def State.reset : State := State.initial builtConfig

end Sys2Proof.Machine
end

