-- ==== Sys2Proof/Machine/Flags.lean ====
section
/-! DEFINITION. The status register: the codes of PHASE and ECODE and the assembly of STATUS (R27, R28,
R29). There are no arithmetic flags (R29, R95). -/

namespace Sys2Proof.Machine

/-- The two bits of PHASE (R27). -/
def phaseBits : Phase → Bits 2
  | .idle => 0b00
  | .run => 0b01
  | .done => 0b10
  | .err => 0b11

/-- The two bits of ECODE (R28). -/
def ecodeBits : ECode → Bits 2
  | .none => 0b00
  | .keyShort => 0b01
  | .keyRange => 0b10
  | .reserved => 0b11

/-- STATUS, host register 1: PHASE in bits 1:0, DIR in bit 2, ECODE in bits 5:4, the others 0 (R29). -/
def statusWord (s : State) : Bits 8 :=
  (0 : Bits 2) ++ ecodeBits s.ecode ++ (0 : Bits 1) ++ s.dir.bit ++ phaseBits s.phase

end Sys2Proof.Machine
end

