-- ==== Sys2Proof/Machine/Operands.lean ====
section
/-! DEFINITION. The data functions of the layers: bit vectors from their bits, chunks (R58), table reads
(R39), the permutation of bits (R82, R83), round keys (R59, R88) and whitening (R90). -/

namespace Sys2Proof.Machine

/-- The integer whose bit `i` is `f i`, for `i < n` (R16). -/
def natOfBits : Nat → (Nat → Bool) → Nat
  | 0, _ => 0
  | n + 1, f => natOfBits n f + (f n).toNat * 2 ^ n

/-- The vector of length `n` whose bit `i` is `f i`. -/
def ofBits (n : Nat) (f : Nat → Bool) : Bits n := BitVec.ofNat n (natOfBits n f)

/-- The list form of a vector, index 0 first (R17). -/
def listForm {n : Nat} (v : Bits n) : List Bool := (List.range n).map v.getLsbD

/-- The vector of a list form, index 0 first (R17). -/
def ofListForm (l : List Bool) : Bits l.length := ofBits l.length fun i => l.getD i false

/-- `TableRead(T, a)` (R39). The default of `getD` is never read: chunk values index the whole table
(DESIGN CHOICE, safe, log entry 18). -/
def tableRead (t : List Nat) (a : Nat) : Nat := t.getD a 0

/-- `chunkval(v, i)`, the integer value of the `k` bits from index `i * k` (R58). -/
def chunkVal {n : Nat} (k : Nat) (v : Bits n) (i : Nat) : Nat := val (v.extractLsb' (i * k) k)

/-- Every chunk `i` of `v` replaced by what table `t i` holds for it (R58, R73): bit `i * k + j` of the
result is bit `j` of the entry read. -/
def mapChunks {n : Nat} (k : Nat) (t : Nat → List Nat) (v : Bits n) : Bits n :=
  ofBits n fun b => (tableRead (t (b / k)) (chunkVal k v (b / k))).testBit (b % k)

/-- `sbox_enc(i, c)` (R70). -/
def sboxEnc (c : Config) (i : Nat) (x : Bits c.k) : Bits c.k :=
  bitsOf c.k (tableRead (c.forwardTable i) (val x))

/-- `sbox_dec(i, c)` (R71). -/
def sboxDec (c : Config) (i : Nat) (x : Bits c.k) : Bits c.k :=
  bitsOf c.k (tableRead (c.backwardTable i) (val x))

/-- `SubE`, the function SUB.E applies to ST (R73). -/
def subE (c : Config) (v : Bits c.L) : Bits c.L := mapChunks c.k c.forwardTable v

/-- `SubD`, the function SUB.D applies to ST (R74). -/
def subD (c : Config) (v : Bits c.L) : Bits c.L := mapChunks c.k c.backwardTable v

/-- `PermE`, the function PERM.E applies to ST: `out[d] = in[PINV[d]]`, that is `out[P[s]] = in[s]`
(R82). -/
def permE (c : Config) (v : Bits c.L) : Bits c.L := ofBits c.L fun d => v.getLsbD (c.source d)

/-- `PermD`, the function PERM.D applies to ST: `out[s] = in[P[s]]` (R83, C1). -/
def permD (c : Config) (v : Bits c.L) : Bits c.L := ofBits c.L fun s => v.getLsbD (c.dest s)

/-- `start_pos(r)` for `r >= 1` (R59). -/
def startPos (c : Config) (r : Nat) : Nat := c.kstride * (r - 1)

/-- `KS(mk, r)`: the `KSIZE` master-key bits from `start_pos(r)` (R88), for `r >= 1` and a slice inside the key.
For round 0, and for a slice that runs past the end of the key, no rule gives a value (R97, N6): it is a free
value (DESIGN CHOICE, safe, log entry 20). -/
def keySchedule (c : Config) {w : Nat} (mk : Bits w) (r : Nat) : Bits c.ksize :=
  if 1 ≤ r ∧ startPos c r + c.ksize ≤ w then mk.extractLsb' (startPos c r) c.ksize
  else Config.freeRoundKey c.ksize w (val mk) r

/-- `Wht(v, key)`: bit `i` is `v[i] xor key[i]` (R90). A configuration has `KSIZE = L`. -/
def wht (c : Config) (v : Bits c.L) (key : Bits c.ksize) : Bits c.L := v ^^^ key.setWidth c.L

end Sys2Proof.Machine
end

