-- ==== Sys2Proof/Machine/Ops.lean ====
section
/-! DEFINITION. The operations over the registers that the instructions and the host's moves share: the
layer pointer (R106), the start of an operation (R103, R104), the fault entry (R122), the register space
(R42, R43) and reset (R135). -/

namespace Sys2Proof.Machine

/-- The three outcomes of a step of this machine. -/
abbrev Result := Host.Outcome State Fault Refusal

/-! ### The layer step (R106) -/

/-- The index of the layer to execute: `LP`, or `LP - 1` when `DIR = 1` (R106); `none` outside
`0 .. NL-1` (R38). -/
def layerIndex (s : State) : Option Nat :=
  match s.dir with
  | .enc => if val s.lp < s.cfg.nl then some (val s.lp) else none
  | .dec => if 1 ≤ val s.lp ∧ val s.lp ≤ s.cfg.nl then some (val s.lp - 1) else none

/-- The value LP takes: one more, or one less when `DIR = 1` (R106). -/
def nextPointer (s : State) : Nat :=
  match s.dir with
  | .enc => val s.lp + 1
  | .dec => val s.lp - 1

/-- The end of the sequence in the running direction: `NL`, or 0 when `DIR = 1` (R106). -/
def endPointer (s : State) : Nat :=
  match s.dir with
  | .enc => s.cfg.nl
  | .dec => 0

/-- LP moves by one, and PHASE becomes DONE at the end of the sequence (R106). -/
def advance (s : State) : State :=
  { s with
    lp := bitsOf s.cfg.lpw (nextPointer s)
    phase := if nextPointer s = endPointer s then .done else s.phase }

/-- One layer operation that leaves `v` in ST and `rc` in RC, with the pointer update, as one atomic step
(R106). LP moves by DIR, whatever the suffix of the operation (DESIGN CHOICE, safe, log entry 10). -/
def layerStep (s : State) (v : Bits s.cfg.L) (rc : Bits s.cfg.rcw) : Result :=
  if s.phase = .run then
    match layerIndex s with
    | some _ => .next (advance { s with st := v, rc := rc })
    | none => .fault .fetchOutsideSequence
  else .refused .engineNotEnabled

/-- The round key the current RC selects (R88, R89), for the rounds `1 .. NW` it is defined for (R96,
R97). -/
def roundKey (s : State) : Option (Bits s.cfg.ksize) :=
  if 1 ≤ val s.rc ∧ val s.rc ≤ s.cfg.nw then some (keySchedule s.cfg s.mk (val s.rc)) else none

/-! ### Starting an operation, and the fault entry -/

/-- `raise ValidationError(code)`: PHASE and ECODE, and nothing else (R122). It is left by the next
START or by reset; there is no return instruction (R124). -/
def raiseValidationError (code : ECode) (s : State) : State :=
  { s with phase := .err, ecode := code }

/-- The run-time causes of a START, in their priority (R121, R123). -/
def startCause (s : State) : Option ECode :=
  if val s.klen < s.cfg.L then some .keyShort
  else if val s.klen < s.cfg.kend then some .keyRange
  else none

/-- An accepted START in direction `d` (R103, R104). -/
def beginOperation (d : Dir) (s : State) : State :=
  { s with
    dir := d
    lp := bitsOf s.cfg.lpw (match d with | .enc => 0 | .dec => s.cfg.nl)
    rc := bitsOf s.cfg.rcw (match d with | .enc => 1 | .dec => s.cfg.nw)
    ecode := .none
    phase := .run }

/-- A START: dropped while RUN (R102), else checked, then refused with a fault or accepted (R103,
R104). -/
def startOperation (d : Dir) (s : State) : State :=
  if s.phase = .run then s
  else
    match startCause s with
    | some code => raiseValidationError code s
    | none => beginOperation d s

/-! ### The host register space (R37) -/

/-- What `HostRead(sel)` returns (R42). While RUN a read of ST is a free value (U2). Where KLW exceeds
BUSW the low bits are read (DEDUCED, unsafe in that case, log entry 13). -/
def readValue (s : State) (sel : Bits 3) : Bits s.cfg.busw :=
  match sel.toNat with
  | 1 => (statusWord s).setWidth _
  | 2 => if s.phase = .run then (Config.freeBits s.cfg.L s.draws).setWidth _ else s.st.setWidth _
  | 3 => s.mk.setWidth _
  | 4 => s.klen.setWidth _
  | _ => 0

/-- The draws a host read uses up: one for a read of ST while RUN, so that each is fresh (U2). -/
def readDraws (s : State) (sel : Bits 3) : Nat :=
  if sel = 2 ∧ s.phase = .run then 1 else 0

/-- A host read: the value on the read-data port, no register changed (R42, R46). -/
def hostRead (s : State) (sel : Bits 3) : State :=
  { s with rdata := readValue s sel, draws := s.draws + readDraws s sel }

/-- A host write to a register other than CTRL: dropped while RUN, ignored for STATUS and the reserved
numbers, else the low bits of the bus stored whole (R43). -/
def storeRegister (s : State) (sel : Bits 3) (v : Bits s.cfg.busw) : State :=
  if s.phase = .run then s
  else
    match sel.toNat with
    | 2 => { s with st := v.setWidth _ }
    | 3 => { s with mk := v.setWidth _ }
    | 4 => { s with klen := v.setWidth _ }
    | _ => s

/-! ### Reset (R135) -/

/-- The host asserts reset, in any phase: ST and MK become free values (U1), the configuration stays
(R19), and so do the host's own agenda and read-data port (DESIGN CHOICE, safe, log entry 12). -/
def assertReset (s : State) : State :=
  { s with
    st := Config.freeBits s.cfg.L s.draws
    mk := Config.freeBits s.cfg.mkw (s.draws + 1)
    klen := 0
    rc := 0
    lp := 0
    dir := .enc
    phase := .idle
    ecode := .none
    draws := s.draws + 2 }

end Sys2Proof.Machine
end

