-- ==== Sys2Proof/Machine/Commands.lean ====
section
/-! DEFINITION. START.ENC, START.DEC and NOP (43_cipher_engine.md section 2). -/

namespace Sys2Proof.Machine

/-- `START.ENC` (R103), dropped while RUN (R102). -/
def execStartEnc (s : State) : Result := .next (startOperation .enc s)

/-- `START.DEC` (R104), dropped while RUN (R102). -/
def execStartDec (s : State) : Result := .next (startOperation .dec s)

/-- `NOP` (R105): no state changes, in every phase. -/
def execNop (s : State) : Result := .next s

end Sys2Proof.Machine
end

