-- ==== Sys2Proof/Machine/Permutation.lean ====
section
/-! DEFINITION. PERM.E and PERM.D (41_permutation.md). -/

namespace Sys2Proof.Machine

/-- `PERM.E` (R82): each bit of ST moves from `s` to `P[s]`. -/
def execPermE (s : State) : Result := layerStep s (permE s.cfg s.st) s.rc

/-- `PERM.D` (R83): each bit of ST moves back from `P[s]` to `s`. -/
def execPermD (s : State) : Result := layerStep s (permD s.cfg s.st) s.rc

end Sys2Proof.Machine
end

