-- ==== Sys2Proof/Machine/Substitution.lean ====
section
/-! DEFINITION. SUB.E and SUB.D (40_substitution.md). -/

namespace Sys2Proof.Machine

/-- `SUB.E` (R73): ST through the forward tables. -/
def execSubE (s : State) : Result := layerStep s (subE s.cfg s.st) s.rc

/-- `SUB.D` (R74): ST through the inverse tables. -/
def execSubD (s : State) : Result := layerStep s (subD s.cfg s.st) s.rc

end Sys2Proof.Machine
end

