-- ==== Sys2Proof/Machine/Whitening.lean ====
section
/-! DEFINITION. WHT.E and WHT.D (42_key_whitening.md). -/

namespace Sys2Proof.Machine

/-- `WHT.E` (R92): ST xor the round key of RC, then RC plus 1. -/
def execWhtE (s : State) : Result :=
  match roundKey s with
  | some key => layerStep s (wht s.cfg s.st key) (bitsOf s.cfg.rcw (val s.rc + 1))
  | none => .refused .roundUndefined

/-- `WHT.D` (R93): ST xor the round key of RC, then RC minus 1. -/
def execWhtD (s : State) : Result :=
  match roundKey s with
  | some key => layerStep s (wht s.cfg s.st key) (bitsOf s.cfg.rcw (val s.rc - 1))
  | none => .refused .roundUndefined

end Sys2Proof.Machine
end

