-- ==== Sys2Proof/Machine/Dispatch.lean ====
section
/-! DEFINITION. The dispatch of instructions to their meanings, one arm per constructor of Instr. -/

namespace Sys2Proof.Machine

def exec (i : Instr) (s : State) : Host.Outcome State Fault Refusal :=
  match i with
  | .subE => Sys2Proof.Machine.execSubE s
  | .permE => Sys2Proof.Machine.execPermE s
  | .whtE => Sys2Proof.Machine.execWhtE s
  | .subD => Sys2Proof.Machine.execSubD s
  | .permD => Sys2Proof.Machine.execPermD s
  | .whtD => Sys2Proof.Machine.execWhtD s
  | .startEnc => Sys2Proof.Machine.execStartEnc s
  | .startDec => Sys2Proof.Machine.execStartDec s
  | .nop => Sys2Proof.Machine.execNop s

end Sys2Proof.Machine
end

