-- ==== Sys2Proof/Machine/Turn.lean ====
section
/-! DEFINITION. The two agents' moves: the engine's fetch and step (R106), the host's accesses (R42, R43,
R102), the library call (R116), and the placing of one instruction for the next step. -/

namespace Sys2Proof.Machine

/-- The fetch: the descriptor at the current layer index (R38). -/
def fetch (s : State) : Option (Bits 2) := (layerIndex s).bind fun i => s.cfg.layers[i]?

/-- The engine's turn: one layer operation while PHASE is RUN (R106), nothing in any other phase, where
the machine stutters (R20, R131; DESIGN CHOICE, safe, log entry 12). -/
def engineTurn (s : State) : Result :=
  if s.phase = .run then
    match fetch s with
    | none => .fault .fetchOutsideSequence
    | some kind =>
      match decodeOpcode (effectiveOpcode s.dir kind) with
      | .ok i => exec i s
      | .error _ => .refused .illegalDescriptor
  else .next s

/-- A host write (R43): a command when `sel = 0`, in every phase (R102), else a register write. -/
def hostWrite (s : State) (sel : Bits 3) (v : Bits s.cfg.busw) : Result :=
  if sel = 0 then exec (decodeCommand (val v)) s else .next (storeRegister s sel v)

/-- One move of one agent (R20). -/
def makeMove (s : State) (m : Move s.cfg.busw) : Result :=
  match m with
  | .engine => engineTurn s
  | .read sel => .next (hostRead s sel)
  | .write sel v => hostWrite s sel v
  | .reset => .next (assertReset s)

/-- The next move of the agenda; with none left, the engine's turn, so that a started operation ends
(R115; DESIGN CHOICE, safe, log entry 2). -/
def turn (s : State) : Result :=
  match s.agenda with
  | [] => engineTurn s
  | m :: rest => makeMove { s with agenda := rest } m

/-- The host's part of `Cipher::encrypt` or `Cipher::decrypt` up to the START command (R116). -/
def libraryCall (busw : Nat) (d : Dir) (state masterKey keyLength : Nat) : List (Move busw) :=
  [.write HostReg.mk.sel (bitsOf busw masterKey), .write HostReg.klen.sel (bitsOf busw keyLength),
    .write HostReg.st.sel (bitsOf busw state),
    .write HostReg.ctrl.sel (bitsOf busw (match d with | .enc => 0x1 | .dec => 0x3))]

/-- A state in mid-operation, the engine about to execute the layer of index `i` in direction `d`, with LP
and RC as R33 (d) and (e) have them there. -/
def atLayer (s : State) (d : Dir) (i : Nat) : State :=
  { s with
    dir := d
    phase := .run
    lp := bitsOf s.cfg.lpw (match d with | .enc => i | .dec => i + 1)
    rc := bitsOf s.cfg.rcw
      (match d with | .enc => 1 + s.cfg.whtBefore i | .dec => s.cfg.whtBefore (i + 1))
    agenda := .engine :: s.agenda }

/-- `s` with the instruction of `c` next: a layer operation is selected in `LAYERS`, which no agent can
write (R51), a command is the host's next move (log entry 11). -/
def placeCode (s : State) (c : Code) : State :=
  match c with
  | .layer op =>
    match s.cfg.layers.findIdx? (fun d => d == op.setWidth 2) with
    | some i => atLayer s (if op.getLsbD 2 then .dec else .enc) i
    | none => s
  | .command v => { s with agenda := .write 0 (bitsOf s.cfg.busw v) :: s.agenda }

end Sys2Proof.Machine
end

