-- ==== Sys2Proof/Machine/Cipher.lean ====
section
/-! DEFINITION. An operation as a function of the block and the master key (R110, R111). -/

namespace Sys2Proof.Machine

/-- The loop of `Enc` over the layers still to come, with the round counter (R110). -/
def encLayers (c : Config) {w : Nat} (mk : Bits w) : List Kind → Nat → Bits c.L → Bits c.L
  | [], _, v => v
  | .sub :: ks, rc, v => encLayers c mk ks rc (subE c v)
  | .perm :: ks, rc, v => encLayers c mk ks rc (permE c v)
  | .wht :: ks, rc, v => encLayers c mk ks (rc + 1) (wht c v (keySchedule c mk rc))

/-- The loop of `Dec` over the layers still to come, last layer first, with the round counter (R111). -/
def decLayers (c : Config) {w : Nat} (mk : Bits w) : List Kind → Nat → Bits c.L → Bits c.L
  | [], _, v => v
  | .sub :: ks, rc, v => decLayers c mk ks rc (subD c v)
  | .perm :: ks, rc, v => decLayers c mk ks rc (permD c v)
  | .wht :: ks, rc, v => decLayers c mk ks (rc - 1) (wht c v (keySchedule c mk rc))

/-- `Enc(v, mk)` (R110), for a master key of at least `KEND` bits. -/
def enc (c : Config) {w : Nat} (mk : Bits w) (v : Bits c.L) : Bits c.L := encLayers c mk c.kinds 1 v

/-- `Dec(v, mk)` (R111), for a master key of at least `KEND` bits. -/
def dec (c : Config) {w : Nat} (mk : Bits w) (v : Bits c.L) : Bits c.L :=
  decLayers c mk c.kinds.reverse c.nw v

end Sys2Proof.Machine
end

