-- ==== Sys2Proof/Safety.lean ====
section
/-! DEFINITION. What the claims call a good state, and an ended operation. -/

namespace Sys2Proof.Machine

/-- While RUN: the layer pointer and the round counter stand where the direction has them, and the key is
long enough (R33 (d), (e), (f)). -/
def RunInv (s : State) : Prop :=
  (match s.dir with
    | .enc => val s.lp < s.cfg.nl ∧ val s.rc = 1 + s.cfg.whtBefore (val s.lp)
    | .dec => 0 < val s.lp ∧ val s.rc = s.cfg.whtBefore (val s.lp)) ∧
  s.cfg.kend ≤ val s.klen

/-- The invariants of R33, as far as one state shows them. -/
structure Inv (s : State) : Prop where
  /-- R33 (a) -/
  lpRange : val s.lp ≤ s.cfg.nl
  /-- R33 (b) -/
  rcRange : val s.rc ≤ s.cfg.nw + 1
  /-- R33 (c) -/
  errIff : s.ecode ≠ .none ↔ s.phase = .err
  /-- R33 (c) -/
  neverReserved : s.ecode ≠ .reserved
  /-- R33 (d), (e), (f) -/
  running : s.phase = .run → RunInv s

/-- An operation has ended (R115). -/
def Ended (s : State) : Prop := s.phase = .done ∨ s.phase = .err

/-- `k` steps of the machine, each of which must answer a next state. -/
def stepsTo : Nat → State → State → Prop
  | 0, s, t => s = t
  | n + 1, s, t => ∃ u, step s = .next u ∧ stepsTo n u t

end Sys2Proof.Machine
end

