-- ==== Sys2Proof/Certificates/Slice0/Obligations.lean ====
section
/-! DEFINITION. The statements for the provers, one `def Obligations.<Name> : Prop` each, in the order of
OBLIGATIONS.json. -/

open Sys2Proof Sys2Proof.Machine

/-! ### Encodings -/

/-- Decoding the encoding of an instruction gives it back (R60, R61). -/
def Obligations.DecodeOfEncode : Prop :=
  ∀ i : Instr, decode (encode i) = .ok i

/-- Words written out from R60 and R61 decode to the instruction they stand for, and the illegal ones to
none (R62). -/
def Obligations.SpecWordsDecode : Prop :=
  decodeTableWord 8 0b001 = some .subE ∧ decodeTableWord 8 0b010 = some .permE ∧
  decodeTableWord 8 0b011 = some .whtE ∧ decodeTableWord 8 0b101 = some .subD ∧
  decodeTableWord 8 0b110 = some .permD ∧ decodeTableWord 8 0b111 = some .whtD ∧
  decodeTableWord 8 0b000 = none ∧ decodeTableWord 8 0b100 = none ∧
  decodeTableWord 32 0x00000001 = some .startEnc ∧ decodeTableWord 32 0x00000003 = some .startDec ∧
  decodeTableWord 32 0x00000000 = some .nop ∧ decodeTableWord 32 0x00000002 = some .nop ∧
  decodeTableWord 32 0xFFFFFFFD = some .startEnc

/-- The command map reads bits 1:0 and nothing else (R61). -/
def Obligations.CommandMap : Prop :=
  ∀ v : Nat, decodeCommand v =
    if v % 4 = 1 then .startEnc else if v % 4 = 3 then .startDec else .nop

/-- The effective opcode is `4 * DIR + kind` (R55) and decodes by the table of R60. -/
def Obligations.OpcodeMap : Prop :=
  (∀ (d : Dir) (kind : Bits 2), val (effectiveOpcode d kind) =
    4 * (match d with | .enc => 0 | .dec => 1) + val kind) ∧
  (∀ op : Bits 3, decodeOpcode op =
    if val op = 1 then .ok .subE else if val op = 2 then .ok .permE
    else if val op = 3 then .ok .whtE else if val op = 5 then .ok .subD
    else if val op = 6 then .ok .permD else if val op = 7 then .ok .whtD
    else .error .illegalKind)

/-! ### One step -/

/-- The engine's turn, planned or by an empty agenda, runs the layer operation its fetch decodes to (R106,
R38). -/
def Obligations.StepRunsFetchedLayer : Prop :=
  ∀ (s u : State) (kind : Bits 2) (i : Instr),
    (s.agenda = [] ∧ u = s) ∨ (∃ rest, s.agenda = .engine :: rest ∧ u = { s with agenda := rest }) →
    s.phase = .run → fetch u = some kind → decodeOpcode (effectiveOpcode u.dir kind) = .ok i →
    step s = exec i u

/-- A host write to CTRL runs the command its value decodes to, in the same step (R102). -/
def Obligations.StepRunsCommand : Prop :=
  ∀ (s : State) (v : Bits s.cfg.busw) (rest : List (Move s.cfg.busw)),
    s.agenda = .write 0 v :: rest →
    step s = exec (decodeCommand (val v)) { s with agenda := rest }

/-- Where neither agent has a step the machine stutters (the model's choice, log entry 12). -/
def Obligations.IdleStutters : Prop :=
  ∀ s : State, s.agenda = [] → s.phase ≠ .run → step s = .next s

/-! ### The layer operations: results and completion -/

/-- SUB.E, opcode 001, completes and puts every chunk through its forward table (R73). -/
def Obligations.SubEncrypts : Prop :=
  decodeOpcode 0b001 = .ok .subE ∧
  ∀ s : State, s.phase = .run → s.dir = .enc → val s.lp < s.cfg.nl →
    ∃ (v : Bits s.cfg.L) (lp : Bits s.cfg.lpw),
      exec .subE s = .next { s with
        st := v
        lp := lp
        phase := if val s.lp + 1 = s.cfg.nl then .done else .run } ∧
      val lp = val s.lp + 1 ∧
      ∀ i < s.cfg.N, chunkVal s.cfg.k v i =
        tableRead (s.cfg.forwardTable i) (chunkVal s.cfg.k s.st i)

/-- SUB.D, opcode 101, completes and puts every chunk through its inverse table (R74). -/
def Obligations.SubDecrypts : Prop :=
  decodeOpcode 0b101 = .ok .subD ∧
  ∀ s : State, s.phase = .run → s.dir = .dec → 1 ≤ val s.lp → val s.lp ≤ s.cfg.nl →
    ∃ (v : Bits s.cfg.L) (lp : Bits s.cfg.lpw),
      exec .subD s = .next { s with
        st := v
        lp := lp
        phase := if val s.lp - 1 = 0 then .done else .run } ∧
      val lp = val s.lp - 1 ∧
      ∀ i < s.cfg.N, chunkVal s.cfg.k v i =
        tableRead (s.cfg.backwardTable i) (chunkVal s.cfg.k s.st i)

/-- PERM.E, opcode 010, completes and moves every bit from `b` to `P[b]` (R82). -/
def Obligations.PermEncrypts : Prop :=
  decodeOpcode 0b010 = .ok .permE ∧
  ∀ s : State, s.phase = .run → s.dir = .enc → val s.lp < s.cfg.nl →
    ∃ (v : Bits s.cfg.L) (lp : Bits s.cfg.lpw),
      exec .permE s = .next { s with
        st := v
        lp := lp
        phase := if val s.lp + 1 = s.cfg.nl then .done else .run } ∧
      val lp = val s.lp + 1 ∧
      ∀ b < s.cfg.L, v.getLsbD (s.cfg.dest b) = s.st.getLsbD b

/-- PERM.D, opcode 110, completes and moves every bit back from `P[b]` to `b` (R83, C1). -/
def Obligations.PermDecrypts : Prop :=
  decodeOpcode 0b110 = .ok .permD ∧
  ∀ s : State, s.phase = .run → s.dir = .dec → 1 ≤ val s.lp → val s.lp ≤ s.cfg.nl →
    ∃ (v : Bits s.cfg.L) (lp : Bits s.cfg.lpw),
      exec .permD s = .next { s with
        st := v
        lp := lp
        phase := if val s.lp - 1 = 0 then .done else .run } ∧
      val lp = val s.lp - 1 ∧
      ∀ b < s.cfg.L, v.getLsbD b = s.st.getLsbD (s.cfg.dest b)

/-- WHT.E, opcode 011, completes for the rounds 1 to NW: ST xor the key bits of RC, then RC plus 1, which never wraps
(R92). -/
def Obligations.WhtEncrypts : Prop :=
  decodeOpcode 0b011 = .ok .whtE ∧
  ∀ s : State, s.phase = .run → s.dir = .enc → val s.lp < s.cfg.nl →
    1 ≤ val s.rc → val s.rc ≤ s.cfg.nw →
    ∃ (v : Bits s.cfg.L) (rc : Bits s.cfg.rcw) (lp : Bits s.cfg.lpw),
      exec .whtE s = .next { s with
        st := v
        rc := rc
        lp := lp
        phase := if val s.lp + 1 = s.cfg.nl then .done else .run } ∧
      val lp = val s.lp + 1 ∧ val rc = val s.rc + 1 ∧
      ∀ b < s.cfg.L, v.getLsbD b =
        (s.st.getLsbD b ^^ s.mk.getLsbD (s.cfg.kstride * (val s.rc - 1) + b))

/-- WHT.D, opcode 111, completes for the rounds 1 to NW: the same xor, then RC minus 1 (R93). -/
def Obligations.WhtDecrypts : Prop :=
  decodeOpcode 0b111 = .ok .whtD ∧
  ∀ s : State, s.phase = .run → s.dir = .dec → 1 ≤ val s.lp → val s.lp ≤ s.cfg.nl →
    1 ≤ val s.rc → val s.rc ≤ s.cfg.nw →
    ∃ (v : Bits s.cfg.L) (rc : Bits s.cfg.rcw) (lp : Bits s.cfg.lpw),
      exec .whtD s = .next { s with
        st := v
        rc := rc
        lp := lp
        phase := if val s.lp - 1 = 0 then .done else .run } ∧
      val lp = val s.lp - 1 ∧ val rc = val s.rc - 1 ∧
      ∀ b < s.cfg.L, v.getLsbD b =
        (s.st.getLsbD b ^^ s.mk.getLsbD (s.cfg.kstride * (val s.rc - 1) + b))

/-- Where a layer operation stops, and why: no round key (R97, U6), PHASE not RUN (R106), no layer there
(R38); everywhere else it completes, whatever its suffix. The names of the stops are the model's (log entries 9
and 10). -/
def Obligations.LayerOperationsStopWhere : Prop :=
  ∀ (d : Dir) (k : Kind) (s : State),
    (k = .wht → ¬(1 ≤ val s.rc ∧ val s.rc ≤ s.cfg.nw) →
      exec (layerInstr d k) s = .refused .roundUndefined) ∧
    ((k = .wht → 1 ≤ val s.rc ∧ val s.rc ≤ s.cfg.nw) → s.phase ≠ .run →
      exec (layerInstr d k) s = .refused .engineNotEnabled) ∧
    ((k = .wht → 1 ≤ val s.rc ∧ val s.rc ≤ s.cfg.nw) → s.phase = .run →
      (s.dir = .enc → s.cfg.nl ≤ val s.lp) →
      (s.dir = .dec → val s.lp = 0 ∨ s.cfg.nl < val s.lp) →
      exec (layerInstr d k) s = .fault .fetchOutsideSequence) ∧
    ((k = .wht → 1 ≤ val s.rc ∧ val s.rc ≤ s.cfg.nw) → s.phase = .run →
      (s.dir = .enc → val s.lp < s.cfg.nl) →
      (s.dir = .dec → 1 ≤ val s.lp ∧ val s.lp ≤ s.cfg.nl) →
      ∃ t : State, exec (layerInstr d k) s = .next t)

/-- Frame of the six layer operations: they write ST, LP and PHASE, WHT also RC, and nothing else. -/
def Obligations.LayerOperationFrame : Prop :=
  ∀ (d : Dir) (k : Kind) (s t : State), exec (layerInstr d k) s = .next t →
    ∃ (v : Bits s.cfg.L) (rc : Bits s.cfg.rcw) (lp : Bits s.cfg.lpw) (p : Phase),
      t = { s with st := v, rc := rc, lp := lp, phase := p } ∧ (k ≠ .wht → rc = s.rc)

/-- Every layer operation moves LP by exactly one position in the direction of DIR, without a wrap (R25,
R108). -/
def Obligations.PointerMovesByOne : Prop :=
  ∀ (d : Dir) (k : Kind) (s t : State), exec (layerInstr d k) s = .next t →
    (s.dir = .enc → val t.lp = val s.lp + 1 ∧ val t.lp ≤ s.cfg.nl) ∧
    (s.dir = .dec → val t.lp + 1 = val s.lp)

/-! ### The commands -/

/-- START.ENC, bits 1:0 = 01, outside RUN: the two faults, or the start of an encryption (R103). -/
def Obligations.StartEncMeaning : Prop :=
  (∀ v : Nat, v % 4 = 1 → decodeCommand v = .startEnc) ∧
  ∀ s : State, s.phase ≠ .run →
    (val s.klen < s.cfg.L →
      exec .startEnc s = .next { s with phase := .err, ecode := .keyShort }) ∧
    (s.cfg.L ≤ val s.klen → val s.klen < s.cfg.kend →
      exec .startEnc s = .next { s with phase := .err, ecode := .keyRange }) ∧
    (s.cfg.L ≤ val s.klen → s.cfg.kend ≤ val s.klen →
      ∃ (lp : Bits s.cfg.lpw) (rc : Bits s.cfg.rcw),
        exec .startEnc s = .next { s with
          dir := .enc, lp := lp, rc := rc, ecode := .none, phase := .run } ∧
        val lp = 0 ∧ val rc = 1)

/-- START.DEC, bits 1:0 = 11, outside RUN: the two faults, or the start of a decryption (R104). -/
def Obligations.StartDecMeaning : Prop :=
  (∀ v : Nat, v % 4 = 3 → decodeCommand v = .startDec) ∧
  ∀ s : State, s.phase ≠ .run →
    (val s.klen < s.cfg.L →
      exec .startDec s = .next { s with phase := .err, ecode := .keyShort }) ∧
    (s.cfg.L ≤ val s.klen → val s.klen < s.cfg.kend →
      exec .startDec s = .next { s with phase := .err, ecode := .keyRange }) ∧
    (s.cfg.L ≤ val s.klen → s.cfg.kend ≤ val s.klen →
      ∃ (lp : Bits s.cfg.lpw) (rc : Bits s.cfg.rcw),
        exec .startDec s = .next { s with
          dir := .dec, lp := lp, rc := rc, ecode := .none, phase := .run } ∧
        val lp = s.cfg.nl ∧ val rc = s.cfg.nw)

/-- NOP, bits 1:0 = 00 or 10, changes no state, in every phase (R105). -/
def Obligations.NopChangesNothing : Prop :=
  (∀ v : Nat, v % 2 = 0 → decodeCommand v = .nop) ∧ ∀ s : State, exec .nop s = .next s

/-- A host write to CTRL acts in the same step, by bits 1:0 of its value alone (R102). -/
def Obligations.CommandDispatch : Prop :=
  ∀ (s : State) (v : Bits s.cfg.busw) (rest : List (Move s.cfg.busw)),
    s.agenda = .write 0 v :: rest →
    (v.getLsbD 0 = false → step s = .next { s with agenda := rest }) ∧
    (v.getLsbD 0 = true → s.phase = .run → step s = .next { s with agenda := rest }) ∧
    (v.getLsbD 0 = true → s.phase ≠ .run → v.getLsbD 1 = false →
      step s = exec .startEnc { s with agenda := rest }) ∧
    (v.getLsbD 0 = true → s.phase ≠ .run → v.getLsbD 1 = true →
      step s = exec .startDec { s with agenda := rest })

/-- Frame of the three commands: they write DIR, LP, RC, ECODE and PHASE, and nothing else; a START that
faults writes only the last two (R122). -/
def Obligations.CommandFrame : Prop :=
  ∀ (i : Instr) (s t : State), i = .startEnc ∨ i = .startDec ∨ i = .nop → exec i s = .next t →
    (∃ (d : Dir) (lp : Bits s.cfg.lpw) (rc : Bits s.cfg.rcw) (e : ECode) (p : Phase),
      t = { s with dir := d, lp := lp, rc := rc, ecode := e, phase := p }) ∧
    (t.phase = .err → ∃ e : ECode, t = { s with ecode := e, phase := .err })

/-! ### The host register space and reset -/

/-- STATUS is assembled as R29 says: its value, hence its reserved bits. -/
def Obligations.StatusLayout : Prop :=
  ∀ s : State, val (statusWord s) =
    (match s.phase with | .idle => 0 | .run => 1 | .done => 2 | .err => 3) +
    4 * (match s.dir with | .enc => 0 | .dec => 1) +
    16 * (match s.ecode with | .none => 0 | .keyShort => 1 | .keyRange => 2 | .reserved => 3)

/-- A host read returns what R42 says and changes no register. A read of ST while RUN returns some L-bit
value, any (a free value, log entry 4); `rdata` and `draws` are the model's own (log entries 3, 4). -/
def Obligations.HostReadReturns : Prop :=
  ∀ (s : State) (sel : Bits 3) (rest : List (Move s.cfg.busw)), s.agenda = .read sel :: rest →
    ∃ (r : Bits s.cfg.busw) (n : Nat),
      step s = .next { s with agenda := rest, rdata := r, draws := n } ∧
      (if sel = 1 then val r = val (statusWord s)
        else if sel = 2 then val r < 2 ^ s.cfg.L ∧ (s.phase ≠ .run → val r = val s.st)
        else if sel = 3 then val r = val s.mk
        else if sel = 4 then (s.cfg.klw ≤ s.cfg.busw → val r = val s.klen)
        else val r = 0)

/-- A host write does what R43 says. -/
def Obligations.HostWriteStores : Prop :=
  ∀ (s : State) (sel : Bits 3) (v : Bits s.cfg.busw) (rest : List (Move s.cfg.busw)),
    s.agenda = .write sel v :: rest →
    (sel = 0 → step s = exec (decodeCommand (val v)) { s with agenda := rest }) ∧
    (sel ≠ 0 → s.phase = .run → step s = .next { s with agenda := rest }) ∧
    (s.phase ≠ .run →
      (sel = 2 → step s = .next { s with agenda := rest, st := bitsOf s.cfg.L (val v) }) ∧
      (sel = 3 → step s = .next { s with agenda := rest, mk := bitsOf s.cfg.mkw (val v) }) ∧
      (sel = 4 → step s = .next { s with agenda := rest, klen := bitsOf s.cfg.klw (val v) }) ∧
      (sel = 1 ∨ sel = 5 ∨ sel = 6 ∨ sel = 7 → step s = .next { s with agenda := rest }))

/-- Reset, in any phase (R135): ST and MK are free values, of which nothing is said (log entry 4). -/
def Obligations.ResetMove : Prop :=
  ∀ (s : State) (rest : List (Move s.cfg.busw)), s.agenda = .reset :: rest →
    ∃ (t : State) (st : Bits s.cfg.L) (mk : Bits s.cfg.mkw) (n : Nat),
      step s = .next t ∧
      t = { s with
        agenda := rest, st := st, mk := mk, draws := n, klen := 0, rc := 0, lp := 0, dir := .enc,
        phase := .idle, ecode := .none } ∧
      val (statusWord t) = 0

/-- The state a run begins in (R34), on the reference configuration but for the permutation map, of which this
says nothing (R10, log entry 6). That ST and MK are 0 there is the model's choice (log entry 5), of which this
says nothing either. -/
def Obligations.LaunchState : Prop :=
  val State.reset.klen = 0 ∧ val State.reset.rc = 0 ∧ val State.reset.lp = 0 ∧
  State.reset.dir = .enc ∧ State.reset.phase = .idle ∧ State.reset.ecode = .none ∧
  val (statusWord State.reset) = 0 ∧
  State.reset.cfg.L = 16 ∧ State.reset.cfg.k = 4 ∧ State.reset.cfg.N = 4 ∧
  State.reset.cfg.nl = 12 ∧ State.reset.cfg.nw = 5 ∧
  State.reset.cfg.kstride = 4 ∧ State.reset.cfg.ksize = 16 ∧ State.reset.cfg.kend = 32 ∧
  (State.reset.cfg.mkw, State.reset.cfg.klw, State.reset.cfg.rcw, State.reset.cfg.lpw,
    State.reset.cfg.busw) = (32, 8, 3, 4, 32) ∧
  State.reset.cfg.sb.length = 4 ∧
  (∀ i < 4,
    State.reset.cfg.forwardTable i =
      [0xC, 0x5, 0x6, 0xB, 0x9, 0x0, 0xA, 0xD, 0x3, 0xE, 0xF, 0x8, 0x4, 0x7, 0x1, 0x2] ∧
    State.reset.cfg.backwardTable i =
      [0x5, 0xE, 0xF, 0x8, 0xC, 0x1, 0x2, 0xD, 0xB, 0x4, 0x6, 0x3, 0x0, 0x7, 0x9, 0xA]) ∧
  State.reset.cfg.layers =
    [0b11, 0b01, 0b10, 0b11, 0b01, 0b10, 0b11, 0b01, 0b10, 0b11, 0b01, 0b11]

/-! ### Invariants and whole-machine rules -/

/-- The invariants of R33 hold right after reset, whatever the configuration. -/
def Obligations.InvAtReset : Prop :=
  ∀ c : Config, Inv (State.initial c)

/-- Every step of either agent keeps the invariants of R33. -/
def Obligations.InvKept : Prop :=
  ∀ s t : State, Inv s → step s = .next t → Inv t

/-- In a state that meets the invariants the machine never stops: no fetch leaves the sequence (R38), no
key is asked for that is not defined (R96), no descriptor is illegal (R62). -/
def Obligations.MachineNeverStops : Prop :=
  ∀ s : State, Inv s → ∃ t : State, step s = .next t

/-- No step changes the configuration (R19). -/
def Obligations.ConfigurationConstant : Prop :=
  ∀ s t : State, step s = .next t → t.cfg = s.cfg

/-- The transitions of PHASE (R27), with ECODE (R28): reset to IDLE; RUN is left only by the engine's last
step, to DONE, or by reset; every other phase is left only by a START, to RUN where the key is long enough
and to ERR where it is not. -/
def Obligations.PhaseTransitions : Prop :=
  ∀ s t : State, step s = .next t →
    (s.agenda.head? = some .reset → t.phase = .idle ∧ t.ecode = .none) ∧
    (s.agenda.head? ≠ some .reset → s.phase = .run →
      t.ecode = s.ecode ∧
      t.phase =
        if (s.agenda = [] ∨ s.agenda.head? = some .engine) ∧
          val t.lp = (match s.dir with | .enc => s.cfg.nl | .dec => 0) then .done else .run) ∧
    (∀ v, s.phase ≠ .run → s.agenda.head? = some (.write 0 v) → (val v).testBit 0 = true →
      if s.cfg.kend ≤ val s.klen then t.phase = .run ∧ t.ecode = .none
      else t.phase = .err ∧ t.ecode = if val s.klen < s.cfg.L then .keyShort else .keyRange) ∧
    (s.phase ≠ .run → s.agenda.head? ≠ some .reset →
      (∀ v, s.agenda.head? = some (.write 0 v) → (val v).testBit 0 = false) →
      t.phase = s.phase ∧ t.ecode = s.ecode)

/-- While an operation runs, MK, KLEN and DIR keep the values it was accepted with (R33 (f)). -/
def Obligations.KeyFixedWhileRunning : Prop :=
  ∀ s t : State, step s = .next t → s.phase = .run → t.phase ≠ .idle →
    val t.mk = val s.mk ∧ val t.klen = val s.klen ∧ t.dir = s.dir

/-- A whitening layer executes with the same round number in both directions, and that number is in
`1 .. NW` (R109). -/
def Obligations.SameRoundBothDirections : Prop :=
  ∀ (s t : State) (i : Nat), Inv s → Inv t → s.cfg = t.cfg →
    s.phase = .run → t.phase = .run → s.dir = .enc → t.dir = .dec →
    val s.lp = i → val t.lp = i + 1 → s.cfg.layers[i]?.bind decodeKind = some .wht →
    val s.rc = val t.rc ∧ 1 ≤ val s.rc ∧ val s.rc ≤ s.cfg.nw

/-! ### Laws of the data functions -/

/-- The chunk value is the sum of R58. -/
def Obligations.ChunkValueIsSum : Prop :=
  ∀ (n k i : Nat) (v : Bits n),
    chunkVal k v i = (Finset.range k).sum fun j => (v.getLsbD (i * k + j)).toNat * 2 ^ j

/-- The inverse table undoes the table, both ways (R68). -/
def Obligations.InverseTables : Prop :=
  ∀ (c : Config) (i x : Nat), i < c.N → x < 2 ^ c.k →
    tableRead (c.backwardTable i) (tableRead (c.forwardTable i) x) = x ∧
    tableRead (c.forwardTable i) (tableRead (c.backwardTable i) x) = x

/-- `PINV` undoes `P`, both ways (R80). -/
def Obligations.InverseMap : Prop :=
  ∀ (c : Config) (b : Nat), b < c.L → c.source (c.dest b) = b ∧ c.dest (c.source b) = b

/-- The inversion laws of the S-box and of the substitution layer (R76). -/
def Obligations.SubstitutionInversion : Prop :=
  (∀ (c : Config) (i : Nat) (x : Bits c.k), i < c.N →
    sboxDec c i (sboxEnc c i x) = x ∧ sboxEnc c i (sboxDec c i x) = x) ∧
  (∀ (c : Config) (v : Bits c.L), subD c (subE c v) = v ∧ subE c (subD c v) = v)

/-- The inversion laws of the permutation layer (R84). -/
def Obligations.PermutationInversion : Prop :=
  ∀ (c : Config) (v : Bits c.L), permD c (permE c v) = v ∧ permE c (permD c v) = v

/-- Both permutations commute with xor (R85). -/
def Obligations.PermutationXor : Prop :=
  ∀ (c : Config) (a b : Bits c.L),
    permE c (a ^^^ b) = permE c a ^^^ permE c b ∧ permD c (a ^^^ b) = permD c a ^^^ permD c b

/-- Whitening twice with one key changes nothing (R94). -/
def Obligations.WhiteningInvolution : Prop :=
  ∀ (c : Config) (v : Bits c.L) (key : Bits c.ksize), wht c (wht c v key) key = v

/-- Round key `r` is the `KSIZE` master-key bits from `KSTRIDE * (r - 1)` (R88), for a key that holds them
(R97: past its end no rule gives a value, log entry 20). -/
def Obligations.RoundKeyBits : Prop :=
  ∀ (c : Config) (w : Nat) (mk : Bits w) (r i : Nat), 1 ≤ r → i < c.ksize →
    c.kstride * (r - 1) + c.ksize ≤ w →
    (keySchedule c mk r).getLsbD i = mk.getLsbD (c.kstride * (r - 1) + i)

/-- Every S-box of a configuration is a bijection of `[0, 2^k)` (R67). -/
def Obligations.SboxIsBijection : Prop :=
  ∀ (c : Config) (i : Nat), i < c.N →
    ∀ y < 2 ^ c.k, ∃! x, x < 2 ^ c.k ∧ tableRead (c.forwardTable i) x = y

/-- The standard sequence: `3R` layers, `R + 1` of them whitenings, and the kind at each index (R99). -/
def Obligations.StandardSequence : Prop :=
  ∀ r : Nat, 1 ≤ r →
    (stdLayers r).length = 3 * r ∧
    (stdLayers r).countP (fun d => decodeKind d == some .wht) = r + 1 ∧
    ∀ i < 3 * r, (stdLayers r)[i]?.bind decodeKind =
      some (if i % 3 = 0 ∨ i = 3 * r - 1 then .wht else if i % 3 = 1 then .sub else .perm)

/-- Construction succeeds exactly when all ten checks pass, and a refusal names a check that fails
(R119). -/
def Obligations.ConstructionChecks : Prop :=
  ∀ p : Params,
    ((∃ c, construct p = .ok c) ↔ ∀ x : CfgCause, p.passes x = true) ∧
    (∀ c, construct p = .ok c → c.toParams = p) ∧
    (∀ x, construct p = .error x → p.passes x = false)

/-! ### Whole operations -/

/-- The round-trip law, both ways, for every configuration and key (R112). -/
def Obligations.RoundTrip : Prop :=
  ∀ (c : Config) (w : Nat) (mk : Bits w) (v : Bits c.L), c.kend ≤ w →
    dec c mk (enc c mk v) = v ∧ enc c mk (dec c mk v) = v

/-- Master-key bits at or above KEND never influence a result (R96), for keys of at least KEND bits (R110). -/
def Obligations.KeyExtent : Prop :=
  ∀ (c : Config) (w w' : Nat) (mk : Bits w) (mk' : Bits w') (v : Bits c.L), c.kend ≤ w → c.kend ≤ w' →
    (∀ i < c.kend, mk.getLsbD i = mk'.getLsbD i) →
    enc c mk v = enc c mk' v ∧ dec c mk v = dec c mk' v

/-- An accepted START.ENC, the engine left to itself: RUN for `NL` steps, then DONE with `Enc` of ST under
MK in ST, `LP = NL`, `RC = NW + 1` and nothing else changed (R107, R114). -/
def Obligations.EncryptionRun : Prop :=
  ∀ s : State, s.agenda = [] → s.phase ≠ .run → s.cfg.L ≤ val s.klen → s.cfg.kend ≤ val s.klen →
    ∃ u : State, exec .startEnc s = .next u ∧
      (∀ j < s.cfg.nl, ∃ t, stepsTo j u t ∧ t.phase = .run) ∧
      ∃ (lp : Bits s.cfg.lpw) (rc : Bits s.cfg.rcw),
        stepsTo s.cfg.nl u { s with
          st := enc s.cfg s.mk s.st, lp := lp, rc := rc, dir := .enc, phase := .done,
          ecode := .none } ∧
        val lp = s.cfg.nl ∧ val rc = s.cfg.nw + 1

/-- The same of START.DEC, with `Dec`, `LP = 0` and `RC = 0` at the end (R107, R114). -/
def Obligations.DecryptionRun : Prop :=
  ∀ s : State, s.agenda = [] → s.phase ≠ .run → s.cfg.L ≤ val s.klen → s.cfg.kend ≤ val s.klen →
    ∃ u : State, exec .startDec s = .next u ∧
      (∀ j < s.cfg.nl, ∃ t, stepsTo j u t ∧ t.phase = .run) ∧
      ∃ (lp : Bits s.cfg.lpw) (rc : Bits s.cfg.rcw),
        stepsTo s.cfg.nl u { s with
          st := dec s.cfg s.mk s.st, lp := lp, rc := rc, dir := .dec, phase := .done,
          ecode := .none } ∧
        val lp = 0 ∧ val rc = 0

/-- Every operation terminates (R108, R115): from any state in mid-operation that meets the invariants, the
engine left to itself ends it within `NL` steps, without an error. -/
def Obligations.OperationTerminates : Prop :=
  ∀ s : State, Inv s → s.phase = .run → s.agenda = [] →
    ∃ (n : Nat) (t : State), 1 ≤ n ∧ n ≤ s.cfg.nl ∧ stepsTo n s t ∧ Ended t ∧ t.ecode = .none

/-- However the host's reads and writes interleave with the `NL` engine turns of an operation, up to the
last of them, the result is the same (R113, R114): no move of the host but reset disturbs it. -/
def Obligations.InterleavedRun : Prop :=
  ∀ (s : State) (d : Dir) (ms : List (Move s.cfg.busw)), s.agenda = ms ++ [.engine] →
    s.phase ≠ .run → s.cfg.L ≤ val s.klen → s.cfg.kend ≤ val s.klen →
    .reset ∉ ms → ms.count .engine + 1 = s.cfg.nl →
    ∃ u t : State, exec (match d with | .enc => .startEnc | .dec => .startDec) s = .next u ∧
      stepsTo (ms.length + 1) u t ∧ t.phase = .done ∧ t.agenda.length = 0 ∧
      val t.st = val (match d with | .enc => enc s.cfg s.mk s.st | .dec => dec s.cfg s.mk s.st)

/-- The library call (R116): the host writes the key, its length and the block, starts, lets the engine
run, reads STATUS, which says DONE, and reads the result. -/
def Obligations.LibraryCallReturns : Prop :=
  ∀ (s : State) (d : Dir) (block key keyLength : Nat), s.phase ≠ .run →
    block < 2 ^ s.cfg.L → key < 2 ^ s.cfg.mkw → s.cfg.kend ≤ keyLength → s.cfg.L ≤ keyLength →
    keyLength < 2 ^ s.cfg.klw → keyLength < 2 ^ s.cfg.busw →
    s.agenda = libraryCall s.cfg.busw d block key keyLength ++
      List.replicate s.cfg.nl .engine ++ [.read 1, .read 2] →
    ∃ t u : State, stepsTo (4 + s.cfg.nl + 1) s t ∧ val t.rdata % 4 = 2 ∧ step t = .next u ∧
      val u.rdata = val (match d with
        | .enc => enc s.cfg (bitsOf s.cfg.mkw key) (bitsOf s.cfg.L block)
        | .dec => dec s.cfg (bitsOf s.cfg.mkw key) (bitsOf s.cfg.L block))

/-- The library call with a key that is too short (R116, R121): ERR with the cause, the block still in
ST. -/
def Obligations.LibraryCallFails : Prop :=
  ∀ (s : State) (d : Dir) (block key keyLength : Nat), s.phase ≠ .run →
    block < 2 ^ s.cfg.L → key < 2 ^ s.cfg.mkw → keyLength < s.cfg.kend →
    keyLength < 2 ^ s.cfg.klw → keyLength < 2 ^ s.cfg.busw →
    s.agenda = libraryCall s.cfg.busw d block key keyLength →
    ∃ t : State, stepsTo 4 s t ∧ t.phase = .err ∧ val t.st = block ∧ val t.mk = key ∧
      t.dir = s.dir ∧ t.ecode = (if keyLength < s.cfg.L then .keyShort else .keyRange)

/-- Chaining (R142): START.ENC, wait, START.DEC, wait, leaves in ST the block that was there before. -/
def Obligations.ChainedOperations : Prop :=
  ∀ s : State, s.phase ≠ .run → s.cfg.L ≤ val s.klen → s.cfg.kend ≤ val s.klen →
    s.agenda = .write 0 (bitsOf s.cfg.busw 1) :: List.replicate s.cfg.nl .engine ++
      .write 0 (bitsOf s.cfg.busw 3) :: List.replicate s.cfg.nl .engine →
    ∃ t : State, stepsTo (2 * s.cfg.nl + 2) s t ∧ t.phase = .done ∧ t.dir = .dec ∧
      val t.st = val s.st ∧ val t.mk = val s.mk
end

