-- ==== Sys2Proof/Laws/Bits.lean ====
section
/-! SUPPORT. Laws of the bit functions: each says once what a bit or a chunk of the result is. -/

namespace Sys2Proof.Machine

theorem natOfBits_lt (n : Nat) (f : Nat → Bool) : natOfBits n f < 2 ^ n := by
  induction n with
  | zero => simp [natOfBits]
  | succ n ih =>
    have : (f n).toNat ≤ 1 := Bool.toNat_le _
    have : (f n).toNat * 2 ^ n ≤ 1 * 2 ^ n := Nat.mul_le_mul_right _ this
    rw [natOfBits, Nat.pow_succ]
    omega

theorem testBit_natOfBits (n : Nat) (f : Nat → Bool) (i : Nat) :
    (natOfBits n f).testBit i = (decide (i < n) && f i) := by
  induction n with
  | zero => simp [natOfBits]
  | succ n ih =>
    have hadd : natOfBits (n + 1) f = 2 ^ n * (f n).toNat + natOfBits n f := by
      rw [natOfBits, Nat.add_comm, Nat.mul_comm]
    rw [hadd, Nat.testBit_two_pow_mul_add _ (natOfBits_lt n f), ih]
    by_cases h : i < n
    · simp [h, Nat.lt_succ_of_lt h]
    · by_cases he : i = n
      · subst he; cases f i <;> simp
      · have : ¬ i < n + 1 := by omega
        have hne : i - n ≠ 0 := by omega
        obtain ⟨j, hj⟩ := Nat.exists_eq_succ_of_ne_zero hne
        cases f n <;> simp [h, this, hj, Nat.testBit_succ]

/-- The bits of a vector built from its bits. -/
@[simp] theorem getLsbD_ofBits (n : Nat) (f : Nat → Bool) (i : Nat) :
    (ofBits n f).getLsbD i = (decide (i < n) && f i) := by
  rw [ofBits, BitVec.getLsbD_ofNat, testBit_natOfBits]
  by_cases h : i < n <;> simp [h]

/-- A vector is built from its own bits. -/
theorem ofBits_getLsbD {n : Nat} (v : Bits n) : ofBits n v.getLsbD = v := by
  apply BitVec.eq_of_getLsbD_eq
  intro i hi
  rw [getLsbD_ofBits, decide_eq_true hi, Bool.true_and]

/-- The bits of a chunk's value (R58). -/
theorem testBit_chunkVal {n : Nat} (k : Nat) (v : Bits n) (i j : Nat) :
    (chunkVal k v i).testBit j = (decide (j < k) && v.getLsbD (i * k + j)) := by
  rw [chunkVal, val, BitVec.testBit_toNat, BitVec.getLsbD_extractLsb']

theorem chunkVal_lt {n : Nat} (k : Nat) (v : Bits n) (i : Nat) : chunkVal k v i < 2 ^ k :=
  BitVec.isLt _

/-- Two vectors are equal if all their chunks are (R41: chunk `i` is bits `[i*k, (i+1)*k)`). -/
theorem eq_of_chunkVal_eq {n k m : Nat} (hn : k * m = n) {v w : Bits n}
    (h : ∀ i < m, chunkVal k v i = chunkVal k w i) : v = w := by
  apply BitVec.eq_of_getLsbD_eq
  intro b hb
  have hk : 0 < k := Nat.pos_of_ne_zero fun h0 => by simp [h0] at hn; omega
  have hi : b / k < m := Nat.div_lt_of_lt_mul (by omega)
  have hj : b % k < k := Nat.mod_lt _ hk
  have hb' : b / k * k + b % k = b := by rw [Nat.mul_comm]; exact Nat.div_add_mod b k
  have := congrArg (fun x => x.testBit (b % k)) (h _ hi)
  simpa [testBit_chunkVal, hj, hb'] using this

/-- Chunk `i` of the result of the chunkwise map is what table `i` holds for chunk `i` (R73). -/
theorem chunkVal_mapChunks {n k m : Nat} (hn : k * m = n) (t : Nat → List Nat) (v : Bits n) {i : Nat}
    (hi : i < m) (hr : tableRead (t i) (chunkVal k v i) < 2 ^ k) :
    chunkVal k (mapChunks k t v) i = tableRead (t i) (chunkVal k v i) := by
  apply Nat.eq_of_testBit_eq
  intro j
  rw [testBit_chunkVal, mapChunks, getLsbD_ofBits]
  by_cases hj : j < k
  · have hk : 0 < k := by omega
    have hlt : i * k + j < n := by
      have : (i + 1) * k ≤ m * k := Nat.mul_le_mul_right k hi
      rw [Nat.add_mul, Nat.one_mul] at this
      rw [← hn, Nat.mul_comm k m]
      omega
    have hd : (i * k + j) / k = i := by
      rw [Nat.mul_comm, Nat.mul_add_div hk, Nat.div_eq_of_lt hj, Nat.add_zero]
    have hm : (i * k + j) % k = j := by
      rw [Nat.mul_comm, Nat.mul_add_mod, Nat.mod_eq_of_lt hj]
    simp [hj, hlt, hd, hm]
  · have : (tableRead (t i) (chunkVal k v i)).testBit j = false :=
      Nat.testBit_lt_two_pow (lt_of_lt_of_le hr (Nat.pow_le_pow_right (by decide) (by omega)))
    simp [hj, this]

/-- The bits of a round key (R88), for a round number and a key that the schedule is defined for. -/
theorem getLsbD_keySchedule (c : Config) {w : Nat} (mk : Bits w) {r : Nat} (hr : 1 ≤ r)
    (hw : c.kstride * (r - 1) + c.ksize ≤ w) (i : Nat) :
    (keySchedule c mk r).getLsbD i =
      (decide (i < c.ksize) && mk.getLsbD (c.kstride * (r - 1) + i)) := by
  rw [keySchedule, if_pos ⟨hr, hw⟩, startPos, BitVec.getLsbD_extractLsb']

/-- The bits of a whitened vector (R90). -/
theorem getLsbD_wht (c : Config) (v : Bits c.L) (key : Bits c.ksize) (i : Nat) :
    (wht c v key).getLsbD i = (v.getLsbD i ^^ (decide (i < c.L) && key.getLsbD i)) := by
  rw [wht, BitVec.getLsbD_xor, BitVec.getLsbD_setWidth]

end Sys2Proof.Machine
end

