-- ==== Sys2Proof/Laws/Config.lean ====
section
/-! SUPPORT. What a configuration's checks give: one lemma per check (R119), and the inverse tables and
map (R68, R80). -/

namespace Sys2Proof

/-- Every check holds of a configuration. -/
theorem Config.passes_all (c : Config) (x : CfgCause) : c.passes x = true := by
  have h := List.all_eq_true.1 c.wf
  exact h x (by cases x <;> decide)

theorem Config.chunk_mul (c : Config) : c.k * c.N = c.L := by
  have h := c.passes_all .subWidth
  simp only [Params.passes, Params.subWidth, Bool.and_eq_true, beq_iff_eq] at h
  exact h.2

theorem Config.sb_length (c : Config) : c.sb.length = c.N := by
  have h := c.passes_all .subWidth
  simp only [Params.passes, Params.subWidth, Bool.and_eq_true, beq_iff_eq] at h
  exact h.1

theorem Config.ksize_eq (c : Config) : c.ksize = c.L := by
  have h := c.passes_all .ksize
  simpa only [Params.passes, Params.ksizeOk, beq_iff_eq] using h

theorem Config.nl_pos (c : Config) : 1 ≤ c.nl := by
  have h := c.passes_all .nonempty
  simpa only [Params.passes, Params.nonempty, decide_eq_true_eq] using h

/-- CFG_MKW (R119). -/
theorem Config.widths (c : Config) :
    c.kend ≤ c.mkw ∧ c.mkw < 2 ^ c.klw ∧ c.nw + 1 < 2 ^ c.rcw ∧ c.nl < 2 ^ c.lpw ∧
      max c.L (max c.mkw 8) ≤ c.busw := by
  have h := c.passes_all .mkw
  simp only [Params.passes, Params.mkwOk, Bool.and_eq_true, decide_eq_true_eq] at h
  obtain ⟨⟨⟨⟨h1, h2⟩, h3⟩, h4⟩, h5⟩ := h
  exact ⟨h1, h2, h3, h4, h5⟩

/-- LP holds every pointer value (R13, R95). -/
theorem Config.val_pointer (c : Config) {n : Nat} (h : n ≤ c.nl) : val (bitsOf c.lpw n) = n := by
  rw [val, bitsOf, BitVec.toNat_ofNat]
  exact Nat.mod_eq_of_lt (lt_of_le_of_lt h c.widths.2.2.2.1)

/-- RC holds every round number (R13, R95). -/
theorem Config.val_round (c : Config) {n : Nat} (h : n ≤ c.nw + 1) : val (bitsOf c.rcw n) = n := by
  rw [val, bitsOf, BitVec.toNat_ofNat]
  exact Nat.mod_eq_of_lt (lt_of_le_of_lt h c.widths.2.2.1)

/-- `KEND >= L`, so a key that passes the second check passes the first (R123). -/
theorem Config.L_le_kend (c : Config) : c.L ≤ c.kend := by
  have := c.ksize_eq
  unfold Params.kend
  omega

/-- The slice of a round in `1 .. NW` ends inside `KEND` (R12, R96). -/
theorem Params.slice_le_kend (p : Params) {r : Nat} (hr : r ≤ p.nw) :
    p.kstride * (r - 1) + p.ksize ≤ p.kend :=
  Nat.add_le_add_right (Nat.mul_le_mul_left _ (Nat.sub_le_sub_right hr 1)) _

/-- Widening a register to the bus keeps its value (R42). -/
theorem val_setWidth_of_le {m n : Nat} (v : Bits m) (h : m ≤ n) : val (v.setWidth n) = val v := by
  rw [val, BitVec.toNat_setWidth]
  exact Nat.mod_eq_of_lt (lt_of_lt_of_le v.isLt (Nat.pow_le_pow_right (by decide) h))

/-- Narrowing the bus to a register keeps the value modulo its width (R43). -/
theorem setWidth_eq_bitsOf {m n : Nat} (v : Bits m) : v.setWidth n = bitsOf n (val v) := by
  apply BitVec.eq_of_toNat_eq
  simp [bitsOf, val]

/-- The count of whitenings grows by one over a `WHT` and by none over another layer (R33). -/
theorem Params.whtBefore_succ (p : Params) {i : Nat} {d : Bits 2} (h : p.layers[i]? = some d) :
    p.whtBefore (i + 1) = p.whtBefore i + if decodeKind d = some .wht then 1 else 0 := by
  obtain ⟨hi, rfl⟩ := List.getElem?_eq_some_iff.1 h
  unfold Params.whtBefore
  rw [List.take_add_one, List.getElem?_eq_getElem hi, List.countP_append]
  simp [List.countP_cons, List.countP_nil]

theorem Params.whtBefore_le (p : Params) (i : Nat) : p.whtBefore i ≤ p.nw := by
  unfold Params.nw Params.whtBefore Params.nl
  rw [List.take_length]
  exact (List.take_sublist _ _).countP_le

/-- No descriptor of a configuration is illegal (R100). -/
theorem Config.kind_of_mem (c : Config) {d : Bits 2} (h : d ∈ c.layers) :
    ∃ k, decodeKind d = some k := by
  have hp := c.passes_all .layerKind
  simp only [Params.passes, Params.layerKind, List.all_eq_true] at hp
  exact Option.isSome_iff_exists.1 (hp d h)

/-- A table of a configuration: its length, its range, its distinctness (R67). -/
theorem Config.table (c : Config) {i : Nat} (hi : i < c.N) :
    (c.forwardTable i).length = 2 ^ c.k ∧ (∀ x ∈ c.forwardTable i, x < 2 ^ c.k) ∧
      (c.forwardTable i).Nodup := by
  have hlen := c.passes_all .sboxLen
  have hrange := c.passes_all .sboxRange
  have hnd := c.passes_all .sboxDistinct
  simp only [Params.passes, Params.sboxLen, Params.sboxRange, Params.sboxDistinct,
    List.all_eq_true, beq_iff_eq, decide_eq_true_eq] at hlen hrange hnd
  have hi' : i < c.sb.length := by rw [c.sb_length]; exact hi
  have hm : c.forwardTable i ∈ c.sb := by
    rw [Params.forwardTable, List.getD_eq_getElem _ _ hi']
    exact List.getElem_mem hi'
  exact ⟨hlen _ hm, hrange _ hm, hnd _ hm⟩

/-- The map of a configuration: its length, its range, its distinctness (R79). -/
theorem Config.map (c : Config) :
    c.perm.length = c.L ∧ (∀ d ∈ c.perm, d < c.L) ∧ c.perm.Nodup := by
  have h := c.passes_all .permBij
  simp only [Params.passes, Params.permBij, Bool.and_eq_true, beq_iff_eq, List.all_eq_true,
    decide_eq_true_eq] at h
  exact ⟨h.1.1, h.1.2, h.2⟩

/-- A list of `n` distinct numbers below `n` holds each of them. -/
theorem mem_of_nodup_lt {n : Nat} {l : List Nat} (hlen : l.length = n) (hlt : ∀ x ∈ l, x < n)
    (hnd : l.Nodup) {y : Nat} (hy : y < n) : y ∈ l := by
  have hsub : l.toFinset ⊆ Finset.range n := by
    intro x hx
    exact Finset.mem_range.2 (hlt x (List.mem_toFinset.1 hx))
  have hcard : l.toFinset.card = (Finset.range n).card := by
    rw [List.toFinset_card_of_nodup hnd, hlen, Finset.card_range]
  have heq := Finset.eq_of_subset_of_card_le hsub hcard.ge
  exact List.mem_toFinset.1 (heq ▸ Finset.mem_range.2 hy)

namespace Machine

/-- A forward read is in range (R39). -/
theorem tableRead_forward_lt (c : Config) {i x : Nat} (hi : i < c.N) (hx : x < 2 ^ c.k) :
    tableRead (c.forwardTable i) x < 2 ^ c.k := by
  obtain ⟨hlen, hlt, -⟩ := c.table hi
  rw [tableRead, List.getD_eq_getElem _ _ (hlen ▸ hx)]
  exact hlt _ (List.getElem_mem _)

/-- What a backward read finds: the index of the value in the forward table (R68). -/
theorem tableRead_backward (c : Config) {i y : Nat} (hy : y < 2 ^ c.k) :
    tableRead (c.backwardTable i) y = (c.forwardTable i).idxOf y := by
  rw [tableRead, Params.backwardTable, inverseTable,
    List.getD_eq_getElem _ _ (by simpa using hy)]
  simp

/-- A backward read is in range (R39). -/
theorem tableRead_backward_lt (c : Config) {i y : Nat} (hi : i < c.N) (hy : y < 2 ^ c.k) :
    tableRead (c.backwardTable i) y < 2 ^ c.k := by
  obtain ⟨hlen, hlt, hnd⟩ := c.table hi
  rw [tableRead_backward c hy, ← hlen]
  exact List.idxOf_lt_length_of_mem (mem_of_nodup_lt hlen hlt hnd hy)

/-- `P[s]` is a bit index (R79). -/
theorem dest_lt (c : Config) {s : Nat} (hs : s < c.L) : c.dest s < c.L := by
  obtain ⟨hlen, hlt, -⟩ := c.map
  rw [Params.dest, List.getD_eq_getElem _ _ (hlen ▸ hs)]
  exact hlt _ (List.getElem_mem _)

/-- `PINV[d]` is a bit index (R80). -/
theorem source_lt (c : Config) {d : Nat} (hd : d < c.L) : c.source d < c.L := by
  obtain ⟨hlen, hlt, hnd⟩ := c.map
  rw [Params.source]
  exact lt_of_lt_of_eq (List.idxOf_lt_length_of_mem (mem_of_nodup_lt hlen hlt hnd hd)) hlen

end Machine

end Sys2Proof
end

