-- ==== Sys2Proof/Laws/State.lean ====
section
/-! SUPPORT. One lemma per field per update of State, so that no later proof unfolds an update. -/

namespace Sys2Proof.Machine

/-! ### advance -/

@[simp] theorem advance_cfg (s : State) : (advance s).cfg = s.cfg := rfl
@[simp] theorem advance_st (s : State) : (advance s).st = s.st := rfl
@[simp] theorem advance_mk (s : State) : (advance s).mk = s.mk := rfl
@[simp] theorem advance_klen (s : State) : (advance s).klen = s.klen := rfl
@[simp] theorem advance_rc (s : State) : (advance s).rc = s.rc := rfl
@[simp] theorem advance_lp (s : State) : (advance s).lp = bitsOf s.cfg.lpw (nextPointer s) := rfl
@[simp] theorem advance_dir (s : State) : (advance s).dir = s.dir := rfl
@[simp] theorem advance_phase (s : State) :
    (advance s).phase = if nextPointer s = endPointer s then .done else s.phase := rfl
@[simp] theorem advance_ecode (s : State) : (advance s).ecode = s.ecode := rfl
@[simp] theorem advance_agenda (s : State) : (advance s).agenda = s.agenda := rfl
@[simp] theorem advance_rdata (s : State) : (advance s).rdata = s.rdata := rfl
@[simp] theorem advance_draws (s : State) : (advance s).draws = s.draws := rfl

/-! ### raiseValidationError -/

@[simp] theorem raiseValidationError_cfg (code : ECode) (s : State) :
    (raiseValidationError code s).cfg = s.cfg := rfl
@[simp] theorem raiseValidationError_st (code : ECode) (s : State) :
    (raiseValidationError code s).st = s.st := rfl
@[simp] theorem raiseValidationError_mk (code : ECode) (s : State) :
    (raiseValidationError code s).mk = s.mk := rfl
@[simp] theorem raiseValidationError_klen (code : ECode) (s : State) :
    (raiseValidationError code s).klen = s.klen := rfl
@[simp] theorem raiseValidationError_rc (code : ECode) (s : State) :
    (raiseValidationError code s).rc = s.rc := rfl
@[simp] theorem raiseValidationError_lp (code : ECode) (s : State) :
    (raiseValidationError code s).lp = s.lp := rfl
@[simp] theorem raiseValidationError_dir (code : ECode) (s : State) :
    (raiseValidationError code s).dir = s.dir := rfl
@[simp] theorem raiseValidationError_phase (code : ECode) (s : State) :
    (raiseValidationError code s).phase = .err := rfl
@[simp] theorem raiseValidationError_ecode (code : ECode) (s : State) :
    (raiseValidationError code s).ecode = code := rfl
@[simp] theorem raiseValidationError_agenda (code : ECode) (s : State) :
    (raiseValidationError code s).agenda = s.agenda := rfl
@[simp] theorem raiseValidationError_rdata (code : ECode) (s : State) :
    (raiseValidationError code s).rdata = s.rdata := rfl
@[simp] theorem raiseValidationError_draws (code : ECode) (s : State) :
    (raiseValidationError code s).draws = s.draws := rfl

/-! ### beginOperation -/

@[simp] theorem beginOperation_cfg (d : Dir) (s : State) : (beginOperation d s).cfg = s.cfg := rfl
@[simp] theorem beginOperation_st (d : Dir) (s : State) : (beginOperation d s).st = s.st := rfl
@[simp] theorem beginOperation_mk (d : Dir) (s : State) : (beginOperation d s).mk = s.mk := rfl
@[simp] theorem beginOperation_klen (d : Dir) (s : State) :
    (beginOperation d s).klen = s.klen := rfl
@[simp] theorem beginOperation_rc (d : Dir) (s : State) :
    (beginOperation d s).rc = bitsOf s.cfg.rcw (match d with | .enc => 1 | .dec => s.cfg.nw) := rfl
@[simp] theorem beginOperation_lp (d : Dir) (s : State) :
    (beginOperation d s).lp = bitsOf s.cfg.lpw (match d with | .enc => 0 | .dec => s.cfg.nl) := rfl
@[simp] theorem beginOperation_dir (d : Dir) (s : State) : (beginOperation d s).dir = d := rfl
@[simp] theorem beginOperation_phase (d : Dir) (s : State) :
    (beginOperation d s).phase = .run := rfl
@[simp] theorem beginOperation_ecode (d : Dir) (s : State) :
    (beginOperation d s).ecode = .none := rfl
@[simp] theorem beginOperation_agenda (d : Dir) (s : State) :
    (beginOperation d s).agenda = s.agenda := rfl
@[simp] theorem beginOperation_rdata (d : Dir) (s : State) :
    (beginOperation d s).rdata = s.rdata := rfl
@[simp] theorem beginOperation_draws (d : Dir) (s : State) :
    (beginOperation d s).draws = s.draws := rfl

/-! ### hostRead -/

@[simp] theorem hostRead_cfg (s : State) (sel : Bits 3) : (hostRead s sel).cfg = s.cfg := rfl
@[simp] theorem hostRead_st (s : State) (sel : Bits 3) : (hostRead s sel).st = s.st := rfl
@[simp] theorem hostRead_mk (s : State) (sel : Bits 3) : (hostRead s sel).mk = s.mk := rfl
@[simp] theorem hostRead_klen (s : State) (sel : Bits 3) : (hostRead s sel).klen = s.klen := rfl
@[simp] theorem hostRead_rc (s : State) (sel : Bits 3) : (hostRead s sel).rc = s.rc := rfl
@[simp] theorem hostRead_lp (s : State) (sel : Bits 3) : (hostRead s sel).lp = s.lp := rfl
@[simp] theorem hostRead_dir (s : State) (sel : Bits 3) : (hostRead s sel).dir = s.dir := rfl
@[simp] theorem hostRead_phase (s : State) (sel : Bits 3) : (hostRead s sel).phase = s.phase := rfl
@[simp] theorem hostRead_ecode (s : State) (sel : Bits 3) : (hostRead s sel).ecode = s.ecode := rfl
@[simp] theorem hostRead_agenda (s : State) (sel : Bits 3) :
    (hostRead s sel).agenda = s.agenda := rfl
@[simp] theorem hostRead_rdata (s : State) (sel : Bits 3) :
    (hostRead s sel).rdata = readValue s sel := rfl
@[simp] theorem hostRead_draws (s : State) (sel : Bits 3) :
    (hostRead s sel).draws = s.draws + readDraws s sel := rfl

/-! ### assertReset -/

@[simp] theorem assertReset_cfg (s : State) : (assertReset s).cfg = s.cfg := rfl
@[simp] theorem assertReset_st (s : State) :
    (assertReset s).st = Config.freeBits s.cfg.L s.draws := rfl
@[simp] theorem assertReset_mk (s : State) :
    (assertReset s).mk = Config.freeBits s.cfg.mkw (s.draws + 1) := rfl
@[simp] theorem assertReset_klen (s : State) : (assertReset s).klen = 0 := rfl
@[simp] theorem assertReset_rc (s : State) : (assertReset s).rc = 0 := rfl
@[simp] theorem assertReset_lp (s : State) : (assertReset s).lp = 0 := rfl
@[simp] theorem assertReset_dir (s : State) : (assertReset s).dir = .enc := rfl
@[simp] theorem assertReset_phase (s : State) : (assertReset s).phase = .idle := rfl
@[simp] theorem assertReset_ecode (s : State) : (assertReset s).ecode = .none := rfl
@[simp] theorem assertReset_agenda (s : State) : (assertReset s).agenda = s.agenda := rfl
@[simp] theorem assertReset_rdata (s : State) : (assertReset s).rdata = s.rdata := rfl
@[simp] theorem assertReset_draws (s : State) : (assertReset s).draws = s.draws + 2 := rfl

end Sys2Proof.Machine
end

