-- ==== Sys2Proof/Laws/Ops.lean ====
section
/-! SUPPORT. One lemma per shared operation that says everything it can do; `step_cases` says it of a
step. -/

namespace Sys2Proof.Machine

/-! ### The layer pointer (R106) -/

/-- The layer index in the encrypt direction (R106). -/
theorem layerIndex_enc {s : State} (hd : s.dir = .enc) (h : val s.lp < s.cfg.nl) :
    layerIndex s = some (val s.lp) := by
  simp [layerIndex, hd, h]

/-- The layer index in the decrypt direction (R106). -/
theorem layerIndex_dec {s : State} (hd : s.dir = .dec) (h1 : 1 ≤ val s.lp)
    (h2 : val s.lp ≤ s.cfg.nl) : layerIndex s = some (val s.lp - 1) := by
  simp [layerIndex, hd, h1, h2]

/-- A layer index is inside the sequence, and says where LP stands (R38). -/
theorem layerIndex_eq_some {s : State} {i : Nat} (h : layerIndex s = some i) :
    i < s.cfg.nl ∧ ((s.dir = .enc ∧ val s.lp = i) ∨ (s.dir = .dec ∧ val s.lp = i + 1)) := by
  unfold layerIndex at h
  cases hd : s.dir <;> simp only [hd] at h <;> split at h <;> cases h
  · exact ⟨‹_›, .inl ⟨rfl, rfl⟩⟩
  · exact ⟨by omega, .inr ⟨rfl, by omega⟩⟩

/-- Inside the sequence LP never wraps (R25, R95). -/
theorem nextPointer_le {s : State} {i : Nat} (h : layerIndex s = some i) :
    nextPointer s ≤ s.cfg.nl := by
  obtain ⟨hi, ⟨hd, hl⟩ | ⟨hd, hl⟩⟩ := layerIndex_eq_some h <;> simp only [nextPointer, hd] <;> omega

/-- The pointer a layer step leaves, as a number (R95). -/
theorem val_nextPointer {s : State} {i : Nat} (h : layerIndex s = some i) :
    val (bitsOf s.cfg.lpw (nextPointer s)) = nextPointer s :=
  s.cfg.val_pointer (nextPointer_le h)

/-- Everything a layer step can answer (R106). -/
theorem layerStep_eq (s : State) (v : Bits s.cfg.L) (rc : Bits s.cfg.rcw) :
    (s.phase ≠ .run ∧ layerStep s v rc = .refused .engineNotEnabled) ∨
    (s.phase = .run ∧ layerIndex s = none ∧ layerStep s v rc = .fault .fetchOutsideSequence) ∨
    (s.phase = .run ∧ ∃ i, layerIndex s = some i ∧
      layerStep s v rc = .next (advance { s with st := v, rc := rc })) := by
  unfold layerStep
  by_cases hp : s.phase = .run
  · cases hi : layerIndex s with
    | none => exact .inr (.inl ⟨hp, rfl, by simp [hp]⟩)
    | some i => exact .inr (.inr ⟨hp, i, rfl, by simp [hp]⟩)
  · exact .inl ⟨hp, by simp [hp]⟩

/-- A layer step answers this state, in this case. -/
theorem layerStep_next {s t : State} {v : Bits s.cfg.L} {rc : Bits s.cfg.rcw}
    (h : layerStep s v rc = .next t) :
    s.phase = .run ∧ (∃ i, layerIndex s = some i) ∧ t = advance { s with st := v, rc := rc } := by
  obtain ⟨-, he⟩ | ⟨-, -, he⟩ | ⟨hp, i, hi, he⟩ := layerStep_eq s v rc <;> rw [he] at h <;> cases h
  exact ⟨hp, ⟨i, hi⟩, rfl⟩

/-- While RUN and inside the sequence a layer step completes (R106). -/
theorem layerStep_of_run {s : State} {i : Nat} (hp : s.phase = .run) (hi : layerIndex s = some i)
    (v : Bits s.cfg.L) (rc : Bits s.cfg.rcw) :
    layerStep s v rc = .next (advance { s with st := v, rc := rc }) := by
  simp [layerStep, hp, hi]

/-! ### The round key (R88) -/

theorem roundKey_of_range {s : State} (h1 : 1 ≤ val s.rc) (h2 : val s.rc ≤ s.cfg.nw) :
    roundKey s = some (keySchedule s.cfg s.mk (val s.rc)) := by
  simp [roundKey, h1, h2]

theorem roundKey_eq_some {s : State} {key : Bits s.cfg.ksize} (h : roundKey s = some key) :
    1 ≤ val s.rc ∧ val s.rc ≤ s.cfg.nw ∧ key = keySchedule s.cfg s.mk (val s.rc) := by
  unfold roundKey at h
  split at h <;> cases h
  exact ⟨(‹_ ∧ _› : _ ∧ _).1, (‹_ ∧ _› : _ ∧ _).2, rfl⟩

/-- Every round key the machine uses lies inside MK, so the schedule gives its bits (R88, R96). -/
theorem getLsbD_keySchedule_mk {s : State} (h1 : 1 ≤ val s.rc) (h2 : val s.rc ≤ s.cfg.nw) (i : Nat) :
    (keySchedule s.cfg s.mk (val s.rc)).getLsbD i =
      (decide (i < s.cfg.ksize) && s.mk.getLsbD (s.cfg.kstride * (val s.rc - 1) + i)) :=
  getLsbD_keySchedule s.cfg s.mk h1 ((s.cfg.slice_le_kend h2).trans s.cfg.widths.1) i

/-! ### The layer operations, together -/

/-- Where a layer operation completes: a round key for WHT, PHASE RUN and a layer at LP (R106). -/
theorem exec_layer_completes {d : Dir} {k : Kind} {s : State} {i : Nat}
    (hk : k = .wht → 1 ≤ val s.rc ∧ val s.rc ≤ s.cfg.nw) (hp : s.phase = .run)
    (hi : layerIndex s = some i) : ∃ t, exec (layerInstr d k) s = .next t := by
  cases k with
  | wht =>
    have hkey := roundKey_of_range (hk rfl).1 (hk rfl).2
    cases d <;> simp only [layerInstr, exec, execWhtE, execWhtD, hkey] <;>
      exact ⟨_, layerStep_of_run hp hi _ _⟩
  | _ => cases d <;> exact ⟨_, layerStep_of_run hp hi _ _⟩

/-- Everything a layer operation leaves when it completes: ST and RC, then the pointer update (R106). -/
theorem exec_layer_next {d : Dir} {k : Kind} {s t : State} (h : exec (layerInstr d k) s = .next t) :
    s.phase = .run ∧ (∃ i, layerIndex s = some i) ∧
      ∃ v rc, t = advance { s with st := v, rc := rc } ∧
        (k ≠ .wht → rc = s.rc) ∧
        (k = .wht → 1 ≤ val s.rc ∧ val s.rc ≤ s.cfg.nw ∧
          (d = .enc → rc = bitsOf s.cfg.rcw (val s.rc + 1)) ∧
          (d = .dec → rc = bitsOf s.cfg.rcw (val s.rc - 1))) := by
  cases k with
  | sub =>
    cases d <;> obtain ⟨hp, hi, ht⟩ := layerStep_next (h : layerStep _ _ _ = _) <;>
      exact ⟨hp, hi, _, _, ht, fun _ => rfl, nofun⟩
  | perm =>
    cases d <;> obtain ⟨hp, hi, ht⟩ := layerStep_next (h : layerStep _ _ _ = _) <;>
      exact ⟨hp, hi, _, _, ht, fun _ => rfl, nofun⟩
  | wht =>
    cases d
    all_goals
      simp only [layerInstr, exec, execWhtE, execWhtD] at h
      split at h
      · rename_i key hk
        obtain ⟨h1, h2, -⟩ := roundKey_eq_some hk
        obtain ⟨hp, hi, ht⟩ := layerStep_next h
        exact ⟨hp, hi, _, _, ht, fun hne => absurd rfl hne, fun _ => ⟨h1, h2, by simp, by simp⟩⟩
      · cases h

/-! ### The commands -/

/-- Everything a START can do (R102, R103, R104, R121). -/
theorem startOperation_cases (d : Dir) (s : State) :
    (s.phase = .run ∧ startOperation d s = s) ∨
    (s.phase ≠ .run ∧ val s.klen < s.cfg.L ∧
      startOperation d s = raiseValidationError .keyShort s) ∨
    (s.phase ≠ .run ∧ s.cfg.L ≤ val s.klen ∧ val s.klen < s.cfg.kend ∧
      startOperation d s = raiseValidationError .keyRange s) ∨
    (s.phase ≠ .run ∧ s.cfg.L ≤ val s.klen ∧ s.cfg.kend ≤ val s.klen ∧
      startOperation d s = beginOperation d s) := by
  unfold startOperation startCause
  by_cases hp : s.phase = .run
  · exact .inl ⟨hp, by simp [hp]⟩
  by_cases h1 : val s.klen < s.cfg.L
  · exact .inr (.inl ⟨hp, h1, by simp [hp, h1]⟩)
  by_cases h2 : val s.klen < s.cfg.kend
  · exact .inr (.inr (.inl ⟨hp, by omega, h2, by simp [hp, h1, h2]⟩))
  · exact .inr (.inr (.inr ⟨hp, by omega, by omega, by simp [hp, h1, h2]⟩))

/-- Every command completes: it does nothing or it is a START (R102). -/
theorem exec_command (v : Nat) (s : State) :
    (decodeCommand v = .nop ∧ exec (decodeCommand v) s = .next s) ∨
    (v.testBit 0 = true ∧ ∃ d, exec (decodeCommand v) s = .next (startOperation d s)) := by
  unfold decodeCommand
  by_cases h0 : v.testBit 0 = true
  · by_cases h1 : v.testBit 1 = true
    · exact .inr ⟨h0, .dec, by simp [h0, h1]; rfl⟩
    · exact .inr ⟨h0, .enc, by simp [h0, h1]; rfl⟩
  · exact .inl ⟨by simp [h0], by simp [h0]; rfl⟩

/-! ### The host's register writes (R43) -/

/-- Everything a register write can do (R43). -/
theorem storeRegister_cases (s : State) (sel : Bits 3) (v : Bits s.cfg.busw) :
    storeRegister s sel v = s ∨
    (s.phase ≠ .run ∧ ∃ st mk klen,
      storeRegister s sel v = { s with st := st, mk := mk, klen := klen }) := by
  unfold storeRegister
  by_cases hp : s.phase = .run
  · exact .inl (by simp [hp])
  simp only [hp, if_false]
  split
  · exact .inr ⟨hp, _, _, _, rfl⟩
  · exact .inr ⟨hp, _, _, _, rfl⟩
  · exact .inr ⟨hp, _, _, _, rfl⟩
  · exact .inl rfl

/-! ### The fetch -/

/-- The fetched descriptor is that of the layer index (R38). -/
theorem fetch_eq_some {s : State} {kind : Bits 2} (h : fetch s = some kind) :
    ∃ i, layerIndex s = some i ∧ s.cfg.layers[i]? = some kind := by
  unfold fetch at h
  cases hi : layerIndex s with
  | none => simp [hi] at h
  | some i => exact ⟨i, rfl, by simpa [hi] using h⟩

/-- Inside the sequence the fetch finds a legal descriptor (R38, R100). -/
theorem fetch_of_layerIndex {s : State} {i : Nat} (h : layerIndex s = some i) :
    ∃ kind k, fetch s = some kind ∧ s.cfg.layers[i]? = some kind ∧ decodeKind kind = some k := by
  have hi : i < s.cfg.layers.length := (layerIndex_eq_some h).1
  obtain ⟨k, hk⟩ := s.cfg.kind_of_mem (List.getElem_mem hi)
  exact ⟨_, k, by simp [fetch, h, hi], by simp [hi], hk⟩

/-- The effective opcode of a legal descriptor decodes to the layer operation of its kind (R60). -/
theorem decodeOpcode_effectiveOpcode (d : Dir) {kind : Bits 2} {k : Kind}
    (h : decodeKind kind = some k) : decodeOpcode (effectiveOpcode d kind) = .ok (layerInstr d k) := by
  have : ∀ d kind k, decodeKind kind = some k →
      decodeOpcode (effectiveOpcode d kind) = .ok (layerInstr d k) := by
    intro d kind k; revert kind; cases d <;> cases k <;> decide
  exact this d kind k h

/-- Only a legal descriptor's effective opcode decodes (R60, R62). -/
theorem kind_of_decodeOpcode {d : Dir} {kind : Bits 2} {i : Instr}
    (h : decodeOpcode (effectiveOpcode d kind) = .ok i) :
    ∃ k, decodeKind kind = some k ∧ i = layerInstr d k := by
  cases hk : decodeKind kind with
  | none =>
    have : ∀ d kind, decodeKind kind = none →
        decodeOpcode (effectiveOpcode d kind) = .error .illegalKind := by
      intro d; cases d <;> decide
    rw [this d kind hk] at h
    cases h
  | some k =>
    rw [decodeOpcode_effectiveOpcode d hk] at h
    exact ⟨k, rfl, (Except.ok.inj h).symm⟩

/-! ### The turns and the step -/

/-- Everything the engine's turn can answer with a next state (R106). -/
theorem engineTurn_next {s t : State} (h : engineTurn s = .next t) :
    (s.phase ≠ .run ∧ t = s) ∨
    (s.phase = .run ∧ ∃ i kind k, layerIndex s = some i ∧ s.cfg.layers[i]? = some kind ∧
      decodeKind kind = some k ∧ exec (layerInstr s.dir k) s = .next t) := by
  unfold engineTurn at h
  by_cases hp : s.phase = .run
  · rw [if_pos hp] at h
    split at h
    · cases h
    · rename_i kind hf
      obtain ⟨i, hi, hk⟩ := fetch_eq_some hf
      split at h
      · rename_i ins hd
        obtain ⟨k, hdk, rfl⟩ := kind_of_decodeOpcode hd
        exact .inr ⟨hp, i, kind, k, hi, hk, hdk, h⟩
      · cases h
  · rw [if_neg hp] at h
    cases h
    exact .inl ⟨hp, rfl⟩

/-- While RUN and inside the sequence the engine's turn is the layer operation of the fetched kind
(R106). -/
theorem engineTurn_of_run {s : State} {i : Nat} {kind : Bits 2} {k : Kind} (hp : s.phase = .run)
    (hi : layerIndex s = some i) (hk : s.cfg.layers[i]? = some kind) (hd : decodeKind kind = some k) :
    engineTurn s = exec (layerInstr s.dir k) s := by
  have hf : fetch s = some kind := by simp [fetch, hi, hk]
  simp [engineTurn, hp, hf, decodeOpcode_effectiveOpcode s.dir hd]

/-- Where the engine has no step its turn changes nothing (R20). -/
theorem engineTurn_of_not_run {s : State} (hp : s.phase ≠ .run) : engineTurn s = .next s := by
  simp [engineTurn, hp]

/-- Everything a host write can do: it always completes (R43, R102). -/
theorem hostWrite_cases (s : State) (sel : Bits 3) (v : Bits s.cfg.busw) :
    hostWrite s sel v = .next s ∨
    (sel = 0 ∧ (val v).testBit 0 = true ∧ ∃ d, hostWrite s sel v = .next (startOperation d s)) ∨
    (sel ≠ 0 ∧ hostWrite s sel v = .next (storeRegister s sel v)) := by
  unfold hostWrite
  by_cases h : sel = 0
  · subst h
    simp only [if_true]
    obtain ⟨-, he⟩ | ⟨hb, d, he⟩ := exec_command (val v) s
    · exact .inl he
    · exact .inr (.inl ⟨by trivial, hb, d, he⟩)
  · exact .inr (.inr ⟨h, by rw [if_neg h]⟩)

/-- The engine's turn is the next move: planned, or because the agenda is empty; `u` is the state it is
made in. -/
def EngineMoves (s u : State) : Prop :=
  (s.agenda = [] ∧ u = s) ∨ ∃ rest, s.agenda = .engine :: rest ∧ u = { s with agenda := rest }

/-- Everything a step can answer with a next state (R20): the engine's turn, or one move of the host. -/
theorem step_cases {s t : State} (h : step s = .next t) :
    (∃ u, EngineMoves s u ∧ engineTurn u = .next t) ∨
    (∃ sel rest, s.agenda = .read sel :: rest ∧ t = hostRead { s with agenda := rest } sel) ∨
    (∃ sel v rest, s.agenda = .write sel v :: rest ∧
      hostWrite { s with agenda := rest } sel v = .next t) ∨
    (∃ rest, s.agenda = .reset :: rest ∧ t = assertReset { s with agenda := rest }) := by
  unfold step turn at h
  split at h
  · exact .inl ⟨s, .inl ⟨‹_›, rfl⟩, h⟩
  · rename_i m rest ha
    cases m with
    | engine => exact .inl ⟨_, .inr ⟨rest, ha, rfl⟩, h⟩
    | read sel => exact .inr (.inl ⟨sel, rest, ha, (Host.Outcome.next.inj h).symm⟩)
    | write sel v => exact .inr (.inr (.inl ⟨sel, v, rest, ha, h⟩))
    | reset => exact .inr (.inr (.inr ⟨rest, ha, (Host.Outcome.next.inj h).symm⟩))

/-- The step in each of its cases, the other way round (R20). -/
theorem step_of_engineMoves {s u : State} (h : EngineMoves s u) : step s = engineTurn u := by
  obtain ⟨ha, rfl⟩ | ⟨rest, ha, rfl⟩ := h
  · simp only [step, turn, ha]
  · simp only [step, turn, ha]
    rfl

theorem step_of_move {s : State} {m : Move s.cfg.busw} {rest : List (Move s.cfg.busw)}
    (h : s.agenda = m :: rest) : step s = makeMove { s with agenda := rest } m := by
  simp only [step, turn, h]

end Sys2Proof.Machine
end

