-- ==== Sys2Proof/Laws/PerInstr.lean ====
section
/-! SUPPORT. Per-instruction facts about the encodings: each row of spec/opcode_table.json owns exactly the
words that its mask and match give it (R60, R61, R63). -/

namespace Sys2Proof.Laws.TableRow

/-- The bits the table gives a row, in whole bytes: 3 bits in format LD, 32 in format CMD. -/
def rowBits : Instr → Nat
  | .subE | .permE | .whtE | .subD | .permD | .whtD => 8
  | .startEnc | .startDec | .nop => 32

/-- The size of the row's mask, as a modulus: every mask of the table covers the lowest bits. -/
def modulus : Instr → Nat
  | .subE | .permE | .whtE | .subD | .permD | .whtD => 8
  | .startEnc | .startDec => 4
  | .nop => 2

/-- The row's match. -/
def pattern : Instr → Nat
  | .subE => 0b001
  | .permE => 0b010
  | .whtE => 0b011
  | .subD => 0b101
  | .permD => 0b110
  | .whtD => 0b111
  | .startEnc => 0b01
  | .startDec => 0b11
  | .nop => 0b0

/-- A word is read as the instruction exactly when its low bits are the row's match. -/
def Statement (i : Instr) : Prop :=
  ∀ w : Nat, decodeTableWord (rowBits i) w = some i ↔ w % modulus i = pattern i

/-- What the table's reader answers in format LD depends on the low three bits (R60). -/
theorem decodeTableWord_layer (w : Nat) : decodeTableWord 8 w = decodeTableWord 8 (w % 8) := by
  have h : BitVec.ofNat 3 w = BitVec.ofNat 3 (w % 8) := by
    apply BitVec.eq_of_toNat_eq
    simp only [BitVec.toNat_ofNat]
    omega
  simp [decodeTableWord, tableCode, h]

/-- What it answers in format CMD depends on the low two bits (R61, R63). -/
theorem decodeTableWord_command (w : Nat) : decodeTableWord 32 w = decodeTableWord 32 (w % 4) := by
  have h0 : w.testBit 0 = (w % 4).testBit 0 := by
    simp only [Nat.testBit_zero]
    congr 1
    simp only [eq_iff_iff]
    omega
  have h1 : w.testBit 1 = (w % 4).testBit 1 :=
    (Nat.testBit_mod_two_pow w 2 1).symm ▸ by simp
  simp [decodeTableWord, tableCode, decode, decodeCommand, h0, h1]

/-- The rows of format LD, from the eight opcodes. -/
theorem layer_row {i : Instr} (hb : rowBits i = 8) (hm : modulus i = 8)
    (h : ∀ x < 8, decodeTableWord 8 x = some i ↔ x = pattern i) : Statement i := by
  intro w
  rw [hb, hm, decodeTableWord_layer]
  exact h (w % 8) (Nat.mod_lt _ (by decide))

/-- The rows of format CMD, from the four values of bits 1:0. -/
theorem command_row {i : Instr} (hb : rowBits i = 32) (hm : modulus i ∣ 4)
    (h : ∀ x < 4, decodeTableWord 32 x = some i ↔ x % modulus i = pattern i) : Statement i := by
  intro w
  rw [hb, decodeTableWord_command, h (w % 4) (Nat.mod_lt _ (by decide)), Nat.mod_mod_of_dvd w hm]

theorem subE : Statement .subE := layer_row rfl rfl (by decide)
theorem permE : Statement .permE := layer_row rfl rfl (by decide)
theorem whtE : Statement .whtE := layer_row rfl rfl (by decide)
theorem subD : Statement .subD := layer_row rfl rfl (by decide)
theorem permD : Statement .permD := layer_row rfl rfl (by decide)
theorem whtD : Statement .whtD := layer_row rfl rfl (by decide)
theorem startEnc : Statement .startEnc := command_row rfl (by decide) (by decide)
theorem startDec : Statement .startDec := command_row rfl (by decide) (by decide)
theorem nop : Statement .nop := command_row rfl (by decide) (by decide)

end Sys2Proof.Laws.TableRow
end

