-- ==== Sys2Proof/Tests/Slice0.lean ====
section
/-! SUPPORT. Tests. Expected results come from the spec: its encodings (30_encoding.md) and its vectors
(95_test_vectors.md), cited by number. The witnesses at the end meet the hypotheses of the obligations. -/

namespace Sys2Proof.Tests

open Sys2Proof.Machine

/-! ### The test data of 95_test_vectors.md section 3 -/

/-- The test map `PA`. -/
def mapPA : Equiv.Perm (Fin 16) where
  toFun s := ⟨4 * (s.val % 4) + s.val / 4, by omega⟩
  invFun s := ⟨4 * (s.val % 4) + s.val / 4, by omega⟩
  left_inv := by decide
  right_inv := by decide

/-- The test map `PB`, not its own inverse. -/
def mapPB : Equiv.Perm (Fin 16) where
  toFun s := 5 * s + 3
  invFun d := 13 * (d - 3)
  left_inv := by decide
  right_inv := by decide

/-- `MKREF`. -/
def mkRef : Nat := 0x3569A356

/-- SPN16-R4 with `PB`. -/
def cfgB : Config := spn16 3 mapPB

/-- An idle engine with `MKREF` loaded and the given key length and block. -/
def loaded (c : Config) (keyLength block : Nat) : State :=
  { State.initial c with mk := bitsOf _ mkRef, klen := bitsOf _ keyLength, st := bitsOf _ block }

/-- An engine in mid-operation. -/
def running (c : Config) (d : Dir) (lp rc block : Nat) : State :=
  { loaded c 32 block with phase := .run, dir := d, lp := bitsOf _ lp, rc := bitsOf _ rc }

/-- The same state with the agents' next moves. -/
def plan (s : State) (moves : List (Move s.cfg.busw)) : State := { s with agenda := moves }

/-- What a test looks at: the values of ST, RC, LP and STATUS of a next state. -/
def view : Result → Option (Nat × Nat × Nat × Nat)
  | .next t => some (val t.st, val t.rc, val t.lp, val (statusWord t))
  | _ => none

/-- The values of MK, KLEN and the read-data port of a next state. -/
def viewKey : Result → Option (Nat × Nat × Nat)
  | .next t => some (val t.mk, val t.klen, val t.rdata)
  | _ => none

/-! ### Decoding, from the encodings of R60, R61, R62 -/

theorem test_decode_subE : decode (.layer 0b001) = .ok .subE := by decide
theorem test_decode_permE : decode (.layer 0b010) = .ok .permE := by decide
theorem test_decode_whtE : decode (.layer 0b011) = .ok .whtE := by decide
theorem test_decode_subD : decode (.layer 0b101) = .ok .subD := by decide
theorem test_decode_permD : decode (.layer 0b110) = .ok .permD := by decide
theorem test_decode_whtD : decode (.layer 0b111) = .ok .whtD := by decide
theorem test_decode_illegal :
    decode (.layer 0b000) = .error .illegalKind ∧ decode (.layer 0b100) = .error .illegalKind := by decide
theorem test_decode_startEnc : decode (.command 0xFFFFFFFD) = .ok .startEnc := by decide
theorem test_decode_startDec : decode (.command 0b11) = .ok .startDec := by decide
theorem test_decode_nop : decode (.command 0b10) = .ok .nop ∧ decode (.command 0b00) = .ok .nop := by decide

/-- The opcode is DIR above the descriptor (R55). -/
theorem test_effective_opcode :
    effectiveOpcode .dec 0b01 = 0b101 ∧ effectiveOpcode .enc 0b10 = 0b010 := by decide

/-- `STD 4`, descriptor by descriptor (R66). -/
theorem test_std4 : stdLayers 4 =
    [0b11, 0b01, 0b10, 0b11, 0b01, 0b10, 0b11, 0b01, 0b10, 0b11, 0b01, 0b11] := by decide

/-! ### Each row of the opcode table as the first instruction after reset -/

/-- DIR, LP, RC and PHASE of a next state. -/
def viewFirst : Result → Option (Dir × Nat × Nat × Phase)
  | .next t => some (t.dir, val t.lp, val t.rc, t.phase)
  | _ => none

theorem test_first_subE :
    viewFirst (step (State.reset.withFetchWord 8 0b001)) = some (.enc, 2, 2, .run) := by decide
theorem test_first_permE :
    viewFirst (step (State.reset.withFetchWord 8 0b010)) = some (.enc, 3, 2, .run) := by decide
theorem test_first_whtE :
    viewFirst (step (State.reset.withFetchWord 8 0b011)) = some (.enc, 1, 2, .run) := by decide
theorem test_first_subD :
    viewFirst (step (State.reset.withFetchWord 8 0b101)) = some (.dec, 1, 1, .run) := by decide
theorem test_first_permD :
    viewFirst (step (State.reset.withFetchWord 8 0b110)) = some (.dec, 2, 1, .run) := by decide
theorem test_first_whtD :
    viewFirst (step (State.reset.withFetchWord 8 0b111)) = some (.dec, 0, 0, .done) := by decide
/-- V30: after reset `KLEN = 0`, so a START faults with E_KEYSHORT. -/
theorem test_first_startEnc :
    viewFirst (step (State.reset.withFetchWord 32 0b01)) = some (.enc, 0, 0, .err) := by decide
theorem test_first_startDec :
    viewFirst (step (State.reset.withFetchWord 32 0b11)) = some (.enc, 0, 0, .err) := by decide
theorem test_first_nop :
    viewFirst (step (State.reset.withFetchWord 32 0b10)) = some (.enc, 0, 0, .idle) := by decide

/-! ### Ill-formed configurations are refused by name (R118, R119) -/

/-- The reference parameters with `PB`, which the tests below spoil one at a time. -/
def good : Params := spn16Params 4 (wiringList mapPB)

theorem test_accepts_reference : good.WellFormed = true := by decide
theorem test_refuses_sbox_len :
    ({ good with sb := List.replicate 4 (defaultSbox.take 15) } : Params).firstCause = some .sboxLen := by
  decide
theorem test_refuses_sbox_range :
    ({ good with sb := List.replicate 4 (16 :: defaultSbox.tail) } : Params).firstCause =
      some .sboxRange := by decide
theorem test_refuses_sbox_distinct :
    ({ good with sb := List.replicate 4 (5 :: defaultSbox.tail) } : Params).firstCause =
      some .sboxDistinct := by decide
theorem test_refuses_sub_width :
    ({ good with N := 3, sb := List.replicate 3 defaultSbox } : Params).firstCause = some .subWidth := by
  decide
theorem test_refuses_perm :
    ({ good with perm := 0 :: (wiringList mapPB).tail } : Params).firstCause = some .permBij := by decide
theorem test_refuses_layer_len : ({ good with ksize := 12 } : Params).passes .layerLen = false := by decide
theorem test_refuses_layer_kind :
    ({ good with layers := 0b00 :: stdLayers 4 } : Params).firstCause = some .layerKind := by decide
/-- N9: no engine is built for `R = 0`. -/
theorem test_refuses_no_rounds : (spn16Params 0 (wiringList mapPB)).firstCause = some .nonempty := by decide
theorem test_refuses_empty : ({ good with layers := [] } : Params).firstCause = some .nonempty := by decide
theorem test_refuses_ksize : ({ good with ksize := 12 } : Params).passes .ksize = false := by decide
/-- `KEND` is 36 with five rounds, above `MKW = 32` (R12). -/
theorem test_refuses_mkw : (spn16Params 5 (wiringList mapPB)).firstCause = some .mkw := by decide

/-! ### Layer operations (95_test_vectors.md section 4) -/

/-- V4: four different chunks. -/
theorem test_subE_V4 : view (exec .subE (running cfgB .enc 1 2 0x8421)) = some (0x3965, 2, 2, 0x01) := by
  decide
/-- V1: SB[0] = C. -/
theorem test_subE_V1 : view (exec .subE (running cfgB .enc 1 2 0x0000)) = some (0xCCCC, 2, 2, 0x01) := by
  decide
/-- V9. -/
theorem test_subD_V9 : view (exec .subD (running cfgB .dec 2 1 0x1234)) = some (0xEF8C, 1, 1, 0x05) := by
  decide
/-- V8. -/
theorem test_subD_V8 : view (exec .subD (running cfgB .dec 2 1 0x2CAB)) = some (0xF063, 1, 1, 0x05) := by
  decide
/-- V15, with a map that is not its own inverse. -/
theorem test_permE_V15 : view (exec .permE (running cfgB .enc 2 2 0x1234)) = some (0xB081, 2, 3, 0x01) := by
  decide
/-- V11, with `PA`. -/
theorem test_permE_V11 :
    view (exec .permE (running (spn16 3 mapPA) .enc 2 2 0x2CAB)) = some (0x74B1, 2, 3, 0x01) := by decide
/-- V16. -/
theorem test_permD_V16 : view (exec .permD (running cfgB .dec 3 1 0x1234)) = some (0x6428, 1, 2, 0x05) := by
  decide
/-- V20: bit 15 comes from PINV, so it lands at 12. -/
theorem test_permD_V20 : view (exec .permD (running cfgB .dec 3 1 0x8000)) = some (0x1000, 1, 2, 0x05) := by
  decide
/-- V22. -/
theorem test_whtE_V22 : view (exec .whtE (running cfgB .enc 0 1 0x5335)) = some (0xF063, 2, 1, 0x01) := by
  decide
/-- V23: the last layer of PRG1; the highest key bit is read and the operation ends. -/
theorem test_whtE_V23 : view (exec .whtE (running cfgB .enc 11 5 0xE82C)) = some (0xDD45, 6, 12, 0x02) := by
  decide
/-- V24. -/
theorem test_whtD_V24 : view (exec .whtD (running cfgB .dec 12 5 0xDD45)) = some (0xE82C, 4, 11, 0x05) := by
  decide
/-- V25: the last layer of PRG2. -/
theorem test_whtD_V25 : view (exec .whtD (running cfgB .dec 1 1 0xF063)) = some (0x5335, 0, 0, 0x06) := by
  decide

/-! ### Commands, faults and register access (section 5) -/

/-- V33: an encryption asked for with `KLEN = 31` after a decryption; DIR stays 1. -/
theorem test_startEnc_V33 :
    view (exec .startEnc { loaded cfgB 31 0x5335 with phase := .done, dir := .dec }) =
      some (0x5335, 0, 0, 0x27) := by decide
/-- V34. -/
theorem test_startEnc_V34 : view (exec .startEnc (loaded cfgB 32 0x5335)) = some (0x5335, 1, 0, 0x01) := by
  decide
/-- V31's boundary for the other command: `KLEN = 15` is E_KEYSHORT, `KLEN = 16` E_KEYRANGE (V32, C9). -/
theorem test_startDec_boundary :
    view (exec .startDec (loaded cfgB 15 0)) = some (0, 0, 0, 0x13) ∧
    view (exec .startDec (loaded cfgB 16 0)) = some (0, 0, 0, 0x23) := by decide
/-- V35. -/
theorem test_startDec_V35 : view (exec .startDec (loaded cfgB 255 0)) = some (0, 5, 12, 0x05) := by decide
/-- V36: a START during RUN is dropped. -/
theorem test_startDec_V36 :
    view (step (plan (running cfgB .enc 4 3 0x1139) [.write 0 0x3])) = some (0x1139, 3, 4, 0x01) := by
  decide
/-- V37: NOP does not leave ERR. -/
theorem test_nop_V37 :
    view (exec .nop (raiseValidationError .keyShort (loaded cfgB 0 7))) = some (7, 0, 0, 0x13) := by decide

/-- V42: bus bits above `L` are ignored. -/
theorem test_write_st_V42 :
    view (step (plan (loaded cfgB 32 0) [.write 2 0xABCD5335])) = some (0x5335, 0, 0, 0x00) := by decide
/-- V43: KLEN is taken modulo 256. -/
theorem test_write_klen_V43 :
    viewKey (step (plan (loaded cfgB 0 0) [.write 4 0x120])) = some (mkRef, 32, 0) := by decide
/-- V38: a write during RUN is dropped. -/
theorem test_write_mk_V38 :
    viewKey (step (plan (running cfgB .enc 1 2 0) [.write 3 0])) = some (mkRef, 32, 0) := by decide
/-- V41: STATUS is read-only. -/
theorem test_write_status_V41 :
    view (step (plan (loaded cfgB 0 9) [.write 1 0xFF])) = some (9, 0, 0, 0x00) := by decide
/-- V55: a write of ST does not clear DONE. -/
theorem test_write_st_V55 :
    view (step (plan { loaded cfgB 32 5 with phase := .done } [.write 2 0])) = some (0, 0, 0, 0x02) := by
  decide
/-- V40 and the exact reads of R42: STATUS, MK and a reserved number while RUN. -/
theorem test_reads :
    viewKey (step (plan (running cfgB .dec 1 1 0) [.read 1])) = some (mkRef, 32, 0x05) ∧
    viewKey (step (plan (running cfgB .dec 1 1 0) [.read 3])) = some (mkRef, 32, mkRef) ∧
    viewKey (step (plan (running cfgB .dec 1 1 0) [.read 7])) = some (mkRef, 32, 0) := by decide
/-- V42's read of ST. -/
theorem test_read_st_V42 :
    viewKey (step (plan (loaded cfgB 32 0x5335) [.read 2])) = some (mkRef, 32, 0x5335) := by decide
/-- R135 and R137: reset in mid-operation. -/
theorem test_reset_in_run :
    viewFirst (step (plan (running cfgB .dec 4 2 0x1234) [.reset])) = some (.enc, 0, 0, .idle) := by decide

/-! ### Data functions and whole operations (R89, section 6) -/

/-- V29, the five round keys of R89. -/
theorem test_round_keys_V29 :
    (List.range 5).map (fun j => val (keySchedule cfgB (bitsOf 32 mkRef) (j + 1))) =
      [0xA356, 0x9A35, 0x69A3, 0x569A, 0x3569] := by decide
/-- E1, and R17: the list form of 0xC. -/
theorem test_sbox_E1 : listForm (sboxEnc cfgB 0 0) = [false, false, true, true] := by decide
/-- V48, two rounds. -/
theorem test_enc_V48 : val (enc (spn16 1 mapPB) (bitsOf 32 mkRef) (bitsOf _ 0x5335)) = 0x5B3D := by decide
/-- V54, two rounds. -/
theorem test_dec_V54 : val (dec (spn16 1 mapPB) (bitsOf 32 mkRef) (bitsOf _ 0x0001)) = 0x77C7 := by decide

/-! ### Witnesses: a concrete state and operands for the hypotheses of each obligation, at the boundaries -/

/-- StepRunsFetchedLayer: an empty agenda, and a planned engine turn. -/
theorem witness_StepRunsFetchedLayer :
    ((running cfgB .enc 0 1 0).agenda = [] ∧ (running cfgB .enc 0 1 0).phase = .run ∧
      fetch (running cfgB .enc 0 1 0) = some 0b11 ∧
      decodeOpcode (effectiveOpcode .enc 0b11) = .ok .whtE) ∧
    ((plan (running cfgB .dec 12 5 0) [.engine]).agenda = .engine :: [] ∧
      fetch (running cfgB .dec 12 5 0) = some 0b11 ∧
      decodeOpcode (effectiveOpcode .dec 0b11) = .ok .whtD) := by decide

theorem witness_StepRunsCommand : (plan (loaded cfgB 32 0) [.write 0 3]).agenda = .write 0 3 :: [] := by
  decide

theorem witness_IdleStutters : (loaded cfgB 32 0).agenda = [] ∧ (loaded cfgB 32 0).phase ≠ .run := by
  decide

/-- SubEncrypts and PermEncrypts, at both ends of the sequence. -/
theorem witness_SubEncrypts_PermEncrypts : ∀ lp ∈ [0, 11],
    (running cfgB .enc lp 1 0).phase = .run ∧ (running cfgB .enc lp 1 0).dir = .enc ∧
      val (running cfgB .enc lp 1 0).lp < (running cfgB .enc lp 1 0).cfg.nl := by decide

/-- SubDecrypts and PermDecrypts, at both ends of the sequence. -/
theorem witness_SubDecrypts_PermDecrypts : ∀ lp ∈ [1, 12],
    (running cfgB .dec lp 1 0).phase = .run ∧ (running cfgB .dec lp 1 0).dir = .dec ∧
      1 ≤ val (running cfgB .dec lp 1 0).lp ∧
      val (running cfgB .dec lp 1 0).lp ≤ (running cfgB .dec lp 1 0).cfg.nl := by decide

/-- WhtEncrypts, in the first and the last round. -/
theorem witness_WhtEncrypts : ∀ rc ∈ [1, 5],
    (running cfgB .enc 11 rc 0).phase = .run ∧ (running cfgB .enc 11 rc 0).dir = .enc ∧
      val (running cfgB .enc 11 rc 0).lp < (running cfgB .enc 11 rc 0).cfg.nl ∧
      1 ≤ val (running cfgB .enc 11 rc 0).rc ∧
      val (running cfgB .enc 11 rc 0).rc ≤ (running cfgB .enc 11 rc 0).cfg.nw := by decide

/-- WhtDecrypts, in the first and the last round. -/
theorem witness_WhtDecrypts : ∀ rc ∈ [1, 5],
    (running cfgB .dec 1 rc 0).phase = .run ∧ (running cfgB .dec 1 rc 0).dir = .dec ∧
      1 ≤ val (running cfgB .dec 1 rc 0).lp ∧
      val (running cfgB .dec 1 rc 0).lp ≤ (running cfgB .dec 1 rc 0).cfg.nl ∧
      1 ≤ val (running cfgB .dec 1 rc 0).rc ∧
      val (running cfgB .dec 1 rc 0).rc ≤ (running cfgB .dec 1 rc 0).cfg.nw := by decide

/-- LayerOperationsStopWhere: rounds 0 and 6 for WHT; PHASE IDLE; LP at 12, 0 and 13; and the edges of where
a layer operation completes. -/
theorem witness_LayerOperationsStopWhere :
    (∀ rc ∈ [0, 6], ¬(1 ≤ val (running cfgB .enc 0 rc 0).rc ∧
      val (running cfgB .enc 0 rc 0).rc ≤ (running cfgB .enc 0 rc 0).cfg.nw)) ∧
    (loaded cfgB 32 0).phase ≠ .run ∧
    ((running cfgB .enc 12 1 0).phase = .run ∧ (running cfgB .enc 12 1 0).dir = .enc ∧
      (running cfgB .enc 12 1 0).cfg.nl ≤ val (running cfgB .enc 12 1 0).lp) ∧
    ((running cfgB .dec 0 1 0).phase = .run ∧ (running cfgB .dec 0 1 0).dir = .dec ∧
      val (running cfgB .dec 0 1 0).lp = 0) ∧
    ((running cfgB .dec 13 1 0).dir = .dec ∧
      (running cfgB .dec 13 1 0).cfg.nl < val (running cfgB .dec 13 1 0).lp) ∧
    (∀ rc ∈ [1, 5], (running cfgB .enc 11 rc 0).phase = .run ∧ (running cfgB .enc 11 rc 0).dir = .enc ∧
      1 ≤ val (running cfgB .enc 11 rc 0).rc ∧
      val (running cfgB .enc 11 rc 0).rc ≤ (running cfgB .enc 11 rc 0).cfg.nw ∧
      val (running cfgB .enc 11 rc 0).lp < (running cfgB .enc 11 rc 0).cfg.nl) ∧
    (∀ lp ∈ [1, 12], (running cfgB .dec lp 1 0).dir = .dec ∧ 1 ≤ val (running cfgB .dec lp 1 0).lp ∧
      val (running cfgB .dec lp 1 0).lp ≤ (running cfgB .dec lp 1 0).cfg.nl) := by decide

/-- LayerOperationFrame and PointerMovesByOne: each of the six completes somewhere. -/
theorem witness_LayerOperationFrame_PointerMovesByOne :
    (∀ k, ∃ t, exec (layerInstr .enc k) (running cfgB .enc 0 1 0) = .next t) ∧
    (∀ k, ∃ t, exec (layerInstr .dec k) (running cfgB .dec 12 5 0) = .next t) := by
  constructor <;> intro k <;> cases k <;> exact ⟨_, rfl⟩

/-- StartEncMeaning and StartDecMeaning: key lengths at the edges of the three clauses. -/
theorem witness_StartEncMeaning_StartDecMeaning :
    (∀ n ∈ [0, 15, 16, 31, 32, 255], (loaded cfgB n 0).phase ≠ .run) ∧
    (∀ n ∈ [0, 15], val (loaded cfgB n 0).klen < (loaded cfgB n 0).cfg.L) ∧
    (∀ n ∈ [16, 31], (loaded cfgB n 0).cfg.L ≤ val (loaded cfgB n 0).klen ∧
      val (loaded cfgB n 0).klen < (loaded cfgB n 0).cfg.kend) ∧
    (∀ n ∈ [32, 255], (loaded cfgB n 0).cfg.L ≤ val (loaded cfgB n 0).klen ∧
      (loaded cfgB n 0).cfg.kend ≤ val (loaded cfgB n 0).klen) := by decide

/-- CommandDispatch: one value of bits 1:0 per clause. -/
theorem witness_CommandDispatch :
    (∀ v : Bits 32, (plan (loaded cfgB 32 0) [.write 0 v]).agenda = .write 0 v :: []) ∧
    (2 : Bits 32).getLsbD 0 = false ∧ (1 : Bits 32).getLsbD 0 = true ∧ (1 : Bits 32).getLsbD 1 = false ∧
    (3 : Bits 32).getLsbD 0 = true ∧ (3 : Bits 32).getLsbD 1 = true ∧
    (running cfgB .enc 4 3 0).phase = .run ∧ (loaded cfgB 32 0).phase ≠ .run :=
  ⟨fun _ => rfl, by decide⟩

/-- CommandFrame: the three commands, and a START that faults. -/
theorem witness_CommandFrame :
    (∃ t, exec .startEnc (loaded cfgB 32 0) = .next t) ∧
    (∃ t, exec .startDec (loaded cfgB 31 0) = .next t ∧ t.phase = .err) ∧
    (∃ t, exec .nop (loaded cfgB 0 0) = .next t) := ⟨⟨_, rfl⟩, ⟨_, rfl, rfl⟩, ⟨_, rfl⟩⟩

/-- HostReadReturns: every register number, and both cases of a read of ST. -/
theorem witness_HostReadReturns :
    (∀ sel : Bits 3, (plan (loaded cfgB 32 0) [.read sel]).agenda = .read sel :: []) ∧
    (loaded cfgB 32 0).phase ≠ .run ∧ (loaded cfgB 32 0).cfg.klw ≤ (loaded cfgB 32 0).cfg.busw := by
  decide

/-- HostWriteStores: every register number, while RUN and not. -/
theorem witness_HostWriteStores :
    (∀ sel : Bits 3, (plan (loaded cfgB 32 0) [.write sel 0x120]).agenda = .write sel 0x120 :: []) ∧
    (loaded cfgB 32 0).phase ≠ .run ∧ (running cfgB .enc 0 1 0).phase = .run := by decide

theorem witness_ResetMove : (plan (running cfgB .dec 4 2 0) [.reset]).agenda = .reset :: [] := by decide

/-- The invariants of R33 hold in mid-operation, in both directions. -/
theorem witness_Inv_enc : Inv (running cfgB .enc 11 5 0) :=
  ⟨by decide, by decide, by decide, by decide, fun _ => ⟨⟨by decide, by decide⟩, by decide⟩⟩
theorem witness_Inv_dec : Inv (running cfgB .dec 12 5 0) :=
  ⟨by decide, by decide, by decide, by decide, fun _ => ⟨⟨by decide, by decide⟩, by decide⟩⟩

/-- OperationTerminates, with one step to go and with twelve. -/
theorem witness_OperationTerminates :
    Inv (running cfgB .enc 11 5 0) ∧ Inv (running cfgB .dec 12 5 0) ∧
    (running cfgB .enc 11 5 0).phase = .run ∧ (running cfgB .dec 12 5 0).phase = .run ∧
    (running cfgB .enc 11 5 0).agenda = [] ∧ (running cfgB .dec 12 5 0).agenda = [] :=
  ⟨witness_Inv_enc, witness_Inv_dec, rfl, rfl, rfl, rfl⟩

/-- InvKept, MachineNeverStops and ConfigurationConstant. -/
theorem witness_InvKept :
    Inv (running cfgB .enc 11 5 0) ∧ ∃ t, step (running cfgB .enc 11 5 0) = .next t :=
  ⟨witness_Inv_enc, _, rfl⟩

/-- PhaseTransitions, clause by clause: reset; the last engine step and one before it; a START with each
outcome; a NOP and a read in ERR. -/
theorem witness_PhaseTransitions :
    (plan (running cfgB .dec 4 2 0) [.reset]).agenda.head? = some .reset ∧
    ((running cfgB .enc 11 5 0).agenda.head? ≠ some .reset ∧ (running cfgB .enc 11 5 0).phase = .run) ∧
    ((running cfgB .enc 10 5 0).agenda.head? ≠ some .reset ∧ (running cfgB .enc 10 5 0).phase = .run) ∧
    (∀ n ∈ [15, 31, 32],
      (plan (loaded cfgB n 0) [.write 0 1]).phase ≠ .run ∧
      (plan (loaded cfgB n 0) [.write 0 1]).agenda.head? = some (.write 0 1)) ∧
    (val (1 : Bits 32)).testBit 0 = true ∧ (val (2 : Bits 32)).testBit 0 = false ∧
    (plan (raiseValidationError .keyShort (loaded cfgB 0 0)) [.write 0 2]).agenda.head? =
      some (.write 0 2) ∧
    (∃ t, step (running cfgB .enc 11 5 0) = .next t) ∧
    (∃ t, step (plan (loaded cfgB 31 0) [.write 0 1]) = .next t) :=
  ⟨by decide, by decide, by decide, by decide, by decide, by decide, by decide, ⟨_, rfl⟩, ⟨_, rfl⟩⟩

theorem witness_KeyFixedWhileRunning :
    (running cfgB .enc 11 5 0).phase = .run ∧
      ∃ t, step (running cfgB .enc 11 5 0) = .next t ∧ t.phase ≠ .idle :=
  ⟨rfl, _, rfl, by decide⟩

/-- SameRoundBothDirections, for the last whitening. -/
theorem witness_SameRoundBothDirections :
    Inv (running cfgB .enc 11 5 0) ∧ Inv (running cfgB .dec 12 5 0) ∧
    (running cfgB .enc 11 5 0).cfg = (running cfgB .dec 12 5 0).cfg ∧
    val (running cfgB .enc 11 5 0).lp = 11 ∧ val (running cfgB .dec 12 5 0).lp = 11 + 1 ∧
    cfgB.layers[11]?.bind decodeKind = some .wht :=
  ⟨witness_Inv_enc, witness_Inv_dec, rfl, by decide, by decide, by decide⟩

/-- The ranges of InverseTables, InverseMap, SubstitutionInversion, SboxIsBijection and RoundKeyBits. -/
theorem witness_ranges :
    3 < cfgB.N ∧ 15 < 2 ^ cfgB.k ∧ 15 < cfgB.L ∧ 1 ≤ 5 ∧ 15 < cfgB.ksize ∧
    cfgB.kstride * (5 - 1) + cfgB.ksize ≤ 32 := by decide

/-- StandardSequence, for the smallest round count. -/
theorem witness_StandardSequence : 1 ≤ 1 ∧ 2 < 3 * 1 := by decide

/-- ConstructionChecks: a configuration that is built, and one that is refused. -/
theorem witness_ConstructionChecks :
    construct (spn16 3 mapPB).toParams = .ok (spn16 3 mapPB) ∧
    construct { good with layers := [] } = .error .nonempty :=
  ⟨dif_pos (spn16 3 mapPB).wf, by decide⟩

theorem witness_RoundTrip : cfgB.kend ≤ 32 := by decide

/-- KeyExtent: keys of 32 and 40 bits that agree below KEND. -/
theorem witness_KeyExtent : cfgB.kend ≤ 32 ∧ cfgB.kend ≤ 40 ∧ ∀ i < cfgB.kend,
    (bitsOf 32 mkRef).getLsbD i = (bitsOf 40 (mkRef + 0x100000000)).getLsbD i := by decide

/-- EncryptionRun and DecryptionRun, with a key just long enough. -/
theorem witness_EncryptionRun_DecryptionRun :
    (loaded cfgB 32 0).agenda = [] ∧ (loaded cfgB 32 0).phase ≠ .run ∧
    (loaded cfgB 32 0).cfg.L ≤ val (loaded cfgB 32 0).klen ∧
    (loaded cfgB 32 0).cfg.kend ≤ val (loaded cfgB 32 0).klen := by decide

/-- Eleven engine turns with host moves between them. -/
def interleaving : List (Move 32) :=
  [.read 1, .engine, .write 2 0xFFFF, .write 0 3] ++ List.replicate 10 .engine ++ [.read 2]

theorem witness_InterleavedRun :
    (plan (loaded cfgB 32 0) (interleaving ++ [.engine])).agenda = interleaving ++ [.engine] ∧
    (loaded cfgB 32 0).phase ≠ .run ∧ .reset ∉ interleaving ∧
    interleaving.count .engine + 1 = cfgB.nl := by decide

/-- LibraryCallReturns: the whole agenda of a call on the reference data. -/
theorem witness_LibraryCallReturns :
    (loaded cfgB 0 0).phase ≠ .run ∧ 0x5335 < 2 ^ cfgB.L ∧ mkRef < 2 ^ cfgB.mkw ∧ cfgB.kend ≤ 32 ∧
    cfgB.L ≤ 32 ∧ 32 < 2 ^ cfgB.klw ∧ 32 < 2 ^ cfgB.busw ∧
    ∃ s : State, s.cfg = cfgB ∧ s.phase ≠ .run ∧
      s.agenda = libraryCall s.cfg.busw .enc 0x5335 mkRef 32 ++ List.replicate s.cfg.nl .engine ++
        [.read 1, .read 2] :=
  ⟨by decide, by decide, by decide, by decide, by decide, by decide, by decide,
    plan (loaded cfgB 0 0) (libraryCall 32 .enc 0x5335 mkRef 32 ++ List.replicate 12 .engine ++
      [.read 1, .read 2]), rfl, by decide, rfl⟩

/-- LibraryCallFails, for both causes. -/
theorem witness_LibraryCallFails :
    (∀ n ∈ [15, 31], n < cfgB.kend ∧ n < 2 ^ cfgB.klw ∧ n < 2 ^ cfgB.busw) ∧
    ∃ s : State, s.cfg = cfgB ∧ s.phase ≠ .run ∧
      s.agenda = libraryCall s.cfg.busw .dec 0x5335 mkRef 31 :=
  ⟨by decide, plan (loaded cfgB 0 0) (libraryCall 32 .dec 0x5335 mkRef 31), rfl, by decide, rfl⟩

theorem witness_ChainedOperations :
    ∃ s : State, s.phase ≠ .run ∧ s.cfg.L ≤ val s.klen ∧ s.cfg.kend ≤ val s.klen ∧
      s.agenda = .write 0 (bitsOf s.cfg.busw 1) :: List.replicate s.cfg.nl .engine ++
        .write 0 (bitsOf s.cfg.busw 3) :: List.replicate s.cfg.nl .engine :=
  ⟨plan (loaded cfgB 32 0x5335)
    (.write 0 (bitsOf 32 1) :: List.replicate 12 .engine ++
      .write 0 (bitsOf 32 3) :: List.replicate 12 .engine), by decide, by decide, by decide, rfl⟩

end Sys2Proof.Tests
end

/-! Rules of the state's operations. -/

namespace Sys2Proof.Machine

/-! ### The layer index and LP (R25, R38, R106) -/

/-- Where LP stands inside the sequence in the running direction, the layer index exists (R38). -/
theorem layerIndex_of_range {s : State} (henc : s.dir = .enc → val s.lp < s.cfg.nl)
    (hdec : s.dir = .dec → 1 ≤ val s.lp ∧ val s.lp ≤ s.cfg.nl) : ∃ i, layerIndex s = some i := by
  cases hd : s.dir with
  | enc => exact ⟨_, layerIndex_enc hd (henc hd)⟩
  | dec => exact ⟨_, layerIndex_dec hd (hdec hd).1 (hdec hd).2⟩

/-- Where LP stands outside the sequence in the running direction, there is no layer index (R38). -/
theorem layerIndex_eq_none {s : State} (henc : s.dir = .enc → s.cfg.nl ≤ val s.lp)
    (hdec : s.dir = .dec → val s.lp = 0 ∨ s.cfg.nl < val s.lp) : layerIndex s = none := by
  by_contra hne
  obtain ⟨i, hi⟩ := Option.ne_none_iff_exists'.1 hne
  obtain ⟨hlt, ⟨hd, hlp⟩ | ⟨hd, hlp⟩⟩ := layerIndex_eq_some hi
  · have := henc hd
    omega
  · have := hdec hd
    omega

/-! ### The layer operations -/

/-- Without a round key a whitening is refused, in both directions (R97). -/
theorem exec_wht_of_round_undefined (d : Dir) {s : State}
    (h : ¬(1 ≤ val s.rc ∧ val s.rc ≤ s.cfg.nw)) :
    exec (layerInstr d .wht) s = .refused .roundUndefined := by
  have hkey : roundKey s = none := if_neg h
  cases d <;> simp [layerInstr, exec, execWhtE, execWhtD, hkey]

/-- With a round key where one is needed, a layer operation is one layer step (R106). -/
theorem exec_layer_eq_layerStep (d : Dir) {k : Kind} {s : State}
    (h : k = .wht → 1 ≤ val s.rc ∧ val s.rc ≤ s.cfg.nw) :
    ∃ v rc, exec (layerInstr d k) s = layerStep s v rc := by
  cases k with
  | sub => cases d <;> exact ⟨_, _, rfl⟩
  | perm => cases d <;> exact ⟨_, _, rfl⟩
  | wht =>
    have hkey := roundKey_of_range (h rfl).1 (h rfl).2
    cases d <;> exact ⟨_, _, by simp only [layerInstr, exec, execWhtE, execWhtD, hkey]; rfl⟩

/-- Outside RUN a layer step is refused (R106). -/
theorem layerStep_of_not_run {s : State} (hp : s.phase ≠ .run) (v : Bits s.cfg.L)
    (rc : Bits s.cfg.rcw) : layerStep s v rc = .refused .engineNotEnabled :=
  if_neg hp

/-- While RUN a layer step outside the sequence faults (R38). -/
theorem layerStep_of_no_layer {s : State} (hp : s.phase = .run) (hi : layerIndex s = none)
    (v : Bits s.cfg.L) (rc : Bits s.cfg.rcw) :
    layerStep s v rc = .fault .fetchOutsideSequence := by
  simp [layerStep, hp, hi]

/-- A layer operation leaves the next pointer in LP, without a wrap (R25, R106). -/
theorem val_lp_of_exec_layer {d : Dir} {k : Kind} {s t : State}
    (h : exec (layerInstr d k) s = .next t) : val t.lp = nextPointer s := by
  obtain ⟨-, ⟨i, hi⟩, v, rc, rfl, -, -⟩ := exec_layer_next h
  exact val_nextPointer hi

/-- A layer operation other than a whitening keeps RC (R73, R82). -/
theorem val_rc_of_exec_layer {d : Dir} {k : Kind} {s t : State} (hk : k ≠ .wht)
    (h : exec (layerInstr d k) s = .next t) : val t.rc = val s.rc := by
  obtain ⟨-, -, v, rc, rfl, hrc, -⟩ := exec_layer_next h
  exact congrArg val (hrc hk)

/-- `WHT.E` counts RC up, without a wrap (R92, R95). -/
theorem val_rc_of_exec_whtE {s t : State} (h : exec (layerInstr .enc .wht) s = .next t) :
    val t.rc = val s.rc + 1 := by
  obtain ⟨-, -, v, rc, rfl, -, hrc⟩ := exec_layer_next h
  obtain ⟨-, hle, henc, -⟩ := hrc rfl
  exact (congrArg val (henc rfl)).trans (s.cfg.val_round (by omega))

/-- `WHT.D` counts RC down, without a wrap (R93, R95). -/
theorem val_rc_of_exec_whtD {s t : State} (h : exec (layerInstr .dec .wht) s = .next t) :
    val t.rc = val s.rc - 1 := by
  obtain ⟨-, -, v, rc, rfl, -, hrc⟩ := exec_layer_next h
  obtain ⟨-, hle, -, hdec⟩ := hrc rfl
  exact (congrArg val (hdec rfl)).trans (s.cfg.val_round (by omega))

/-! ### The moves -/

/-- The engine's turn is made in the state with at most its agenda changed (R20). -/
theorem EngineMoves.eq_withAgenda {s u : State} (h : EngineMoves s u) :
    ∃ rest, u = { s with agenda := rest } := by
  obtain ⟨-, rfl⟩ | ⟨rest, -, rfl⟩ := h
  · exact ⟨u.agenda, rfl⟩
  · exact ⟨rest, rfl⟩

/-- The engine's turn leaves the state as it was, outside RUN, or is one pointer update over a new ST and RC
(R106). -/
theorem engineTurn_eq_advance {s t : State} (h : engineTurn s = .next t) :
    (s.phase ≠ .run ∧ t = s) ∨
    (s.phase = .run ∧ val t.lp = nextPointer s ∧
      ∃ v rc, t = advance { s with st := v, rc := rc }) := by
  obtain hs | ⟨hp, i, kind, k, -, -, -, hx⟩ := engineTurn_next h
  · exact .inl hs
  · obtain ⟨-, -, v, rc, ht, -, -⟩ := exec_layer_next hx
    exact .inr ⟨hp, val_lp_of_exec_layer hx, v, rc, ht⟩

/-- While RUN a host write is dropped, a command or not (R43, R102). -/
theorem hostWrite_of_run {s t : State} {sel : Bits 3} {v : Bits s.cfg.busw}
    (h : hostWrite s sel v = .next t) (hp : s.phase = .run) : t = s := by
  obtain he | ⟨-, -, d, he⟩ | ⟨-, he⟩ := hostWrite_cases s sel v <;>
    obtain rfl := Host.Outcome.next.inj (he.symm.trans h)
  · rfl
  · exact if_pos hp
  · exact if_pos hp

/-- A host write to CTRL with bit 0 set is a START (R102). -/
theorem hostWrite_start (s : State) {v : Bits s.cfg.busw} (hv : (val v).testBit 0 = true) :
    ∃ d, hostWrite s 0 v = .next (startOperation d s) := by
  have hnop : decodeCommand (val v) ≠ .nop := by
    rw [decodeCommand, if_pos hv]
    split <;> decide
  obtain ⟨hn, -⟩ | ⟨-, d, he⟩ := exec_command (val v) s
  · exact absurd hn hnop
  · exact ⟨d, he⟩

/-- Outside RUN, PHASE and ECODE of a START by the key length alone (R103, R104, R121, R123). -/
theorem startOperation_phase_ecode (d : Dir) {s : State} (hp : s.phase ≠ .run) :
    if s.cfg.kend ≤ val s.klen then
      (startOperation d s).phase = .run ∧ (startOperation d s).ecode = .none
    else (startOperation d s).phase = .err ∧
      (startOperation d s).ecode = if val s.klen < s.cfg.L then .keyShort else .keyRange := by
  have hL := s.cfg.L_le_kend
  obtain ⟨hr, -⟩ | ⟨-, hs, he⟩ | ⟨-, hs, hk, he⟩ | ⟨-, -, hk, he⟩ := startOperation_cases d s
  · exact absurd hr hp
  · rw [if_neg (by omega), he]
    exact ⟨rfl, (if_pos hs).symm⟩
  · rw [if_neg (by omega), he]
    exact ⟨rfl, (if_neg (by omega)).symm⟩
  · rw [if_pos hk, he]
    exact ⟨rfl, rfl⟩

/-- A register write leaves the configuration, PHASE and ECODE (R43). -/
theorem storeRegister_frame (s : State) (sel : Bits 3) (v : Bits s.cfg.busw) :
    (storeRegister s sel v).cfg = s.cfg ∧ (storeRegister s sel v).phase = s.phase ∧
      (storeRegister s sel v).ecode = s.ecode := by
  obtain he | ⟨-, st, mk, klen, he⟩ := storeRegister_cases s sel v <;> rw [he] <;>
    exact ⟨rfl, rfl, rfl⟩

theorem startOperation_cfg (d : Dir) (s : State) : (startOperation d s).cfg = s.cfg := by
  obtain ⟨-, he⟩ | ⟨-, -, he⟩ | ⟨-, -, -, he⟩ | ⟨-, -, -, he⟩ := startOperation_cases d s <;>
    rw [he] <;> rfl

theorem hostWrite_cfg {s t : State} {sel : Bits 3} {v : Bits s.cfg.busw}
    (h : hostWrite s sel v = .next t) : t.cfg = s.cfg := by
  obtain he | ⟨-, -, d, he⟩ | ⟨-, he⟩ := hostWrite_cases s sel v <;>
    obtain rfl := Host.Outcome.next.inj (he.symm.trans h)
  · rfl
  · exact startOperation_cfg d s
  · exact (storeRegister_frame s sel v).1

/-- A host write that is no START leaves PHASE and ECODE (R43, R105). -/
theorem hostWrite_phase_ecode {s t : State} {sel : Bits 3} {v : Bits s.cfg.busw}
    (h : hostWrite s sel v = .next t) (hv : sel = 0 → (val v).testBit 0 = false) :
    t.phase = s.phase ∧ t.ecode = s.ecode := by
  obtain he | ⟨hsel, hb, d, he⟩ | ⟨-, he⟩ := hostWrite_cases s sel v
  · obtain rfl := Host.Outcome.next.inj (he.symm.trans h)
    exact ⟨rfl, rfl⟩
  · exact absurd (hb.symm.trans (hv hsel)) (by decide)
  · obtain rfl := Host.Outcome.next.inj (he.symm.trans h)
    exact (storeRegister_frame s sel v).2

theorem engineTurn_cfg {s t : State} (h : engineTurn s = .next t) : t.cfg = s.cfg := by
  obtain ⟨-, rfl⟩ | ⟨-, -, v, rc, rfl⟩ := engineTurn_eq_advance h <;> rfl

/-- The engine's turn leaves ECODE, and ends the operation exactly when LP reaches the end of the sequence
(R106). -/
theorem engineTurn_phase_ecode {s t : State} (h : engineTurn s = .next t) (hp : s.phase = .run) :
    t.ecode = s.ecode ∧ t.phase = if val t.lp = endPointer s then .done else .run := by
  obtain ⟨hne, -⟩ | ⟨-, hlp, v, rc, rfl⟩ := engineTurn_eq_advance h
  · exact absurd hp hne
  · rw [hlp, ← hp]
    exact ⟨rfl, rfl⟩

/-- The engine's turn leaves MK, KLEN and DIR (R106). -/
theorem engineTurn_key_dir {s t : State} (h : engineTurn s = .next t) :
    val t.mk = val s.mk ∧ val t.klen = val s.klen ∧ t.dir = s.dir := by
  obtain ⟨-, rfl⟩ | ⟨-, -, v, rc, rfl⟩ := engineTurn_eq_advance h <;> exact ⟨rfl, rfl, rfl⟩

end Sys2Proof.Machine

/-! The invariants of R33: what they say of each direction, what they give at a layer, and that each move keeps
them. -/

namespace Sys2Proof.Machine

/-! ### The round at a layer (R33 (d), (e)) -/

/-- The round counter with LP at `n` in mid-operation: one more than the whitenings passed when encrypting, those
still to undo when decrypting (R33 (d), (e)). -/
def roundAt (c : Config) (n : Nat) : Dir → Nat
  | .enc => 1 + c.whtBefore n
  | .dec => c.whtBefore n

theorem roundAt_le (c : Config) (n : Nat) (d : Dir) : roundAt c n d ≤ c.nw + 1 := by
  have := c.whtBefore_le n
  cases d <;> simp only [roundAt] <;> omega

/-- With LP in range, what RUN asks of the registers, in one form for both directions: LP is not at its end, RC
is the round there, the key is long enough (R33 (d), (e), (f)). -/
theorem runInv_iff {s : State} (hlp : val s.lp ≤ s.cfg.nl) :
    RunInv s ↔ val s.lp ≠ endPointer s ∧ val s.rc = roundAt s.cfg (val s.lp) s.dir ∧
      s.cfg.kend ≤ val s.klen := by
  cases hd : s.dir with
  | enc =>
    simp only [RunInv, endPointer, roundAt, hd, and_assoc]
    exact and_congr_left fun _ => by omega
  | dec =>
    simp only [RunInv, endPointer, roundAt, hd, and_assoc]
    exact and_congr_left fun _ => by omega

/-- While RUN the round counter is the round at LP (R33 (d), (e)). -/
theorem Inv.rc_eq_roundAt {s : State} (h : Inv s) (hp : s.phase = .run) :
    val s.rc = roundAt s.cfg (val s.lp) s.dir :=
  ((runInv_iff h.lpRange).1 (h.running hp)).2.1

/-- While RUN the invariants put a layer at LP (R38). -/
theorem Inv.exists_layerIndex {s : State} (h : Inv s) (hp : s.phase = .run) :
    ∃ i, layerIndex s = some i := by
  have hle := h.lpRange
  have hend := ((runInv_iff hle).1 (h.running hp)).1
  refine layerIndex_of_range (fun hd => ?_) (fun hd => ?_) <;>
    simp only [endPointer, hd] at hend <;> omega

/-- While RUN there is no error cause (R33 (c)). -/
theorem Inv.ecode_of_run {s : State} (h : Inv s) (hp : s.phase = .run) : s.ecode = .none := by
  by_contra he
  exact absurd (hp.symm.trans (h.errIff.1 he)) (by decide)

/-- No whitening precedes the first layer (R33). -/
theorem whtBefore_zero (p : Params) : p.whtBefore 0 = 0 := by
  simp [Params.whtBefore]

/-- A whitening is counted after it and not before it (R33). -/
theorem whtBefore_succ_of_wht {p : Params} {i : Nat} {kind : Bits 2} (hk : p.layers[i]? = some kind)
    (hd : decodeKind kind = some .wht) : p.whtBefore (i + 1) = p.whtBefore i + 1 := by
  rw [p.whtBefore_succ hk, if_pos hd]

/-- Another layer is not counted (R33). -/
theorem whtBefore_succ_of_ne_wht {p : Params} {i : Nat} {kind : Bits 2} {k : Kind}
    (hk : p.layers[i]? = some kind) (hd : decodeKind kind = some k) (hne : k ≠ .wht) :
    p.whtBefore (i + 1) = p.whtBefore i := by
  rw [p.whtBefore_succ hk, if_neg fun h => hne (Option.some.inj (hd.symm.trans h)), Nat.add_zero]

/-- At a whitening both directions use the same round number: the whitenings up to and with this one
(R109). -/
theorem Inv.rc_at_wht {s : State} {i : Nat} {kind : Bits 2} (h : Inv s) (hp : s.phase = .run)
    (hi : layerIndex s = some i) (hk : s.cfg.layers[i]? = some kind)
    (hd : decodeKind kind = some .wht) : val s.rc = s.cfg.whtBefore i + 1 := by
  rw [h.rc_eq_roundAt hp]
  obtain ⟨-, ⟨hdir, hlp⟩ | ⟨hdir, hlp⟩⟩ := layerIndex_eq_some hi
  · rw [hdir, hlp, roundAt, Nat.add_comm]
  · rw [hdir, hlp, roundAt, whtBefore_succ_of_wht hk hd]

/-- The round of a whitening is one of `1 .. NW` (R96, R109). -/
theorem Inv.rc_range_at_wht {s : State} {i : Nat} {kind : Bits 2} (h : Inv s) (hp : s.phase = .run)
    (hi : layerIndex s = some i) (hk : s.cfg.layers[i]? = some kind)
    (hd : decodeKind kind = some .wht) : 1 ≤ val s.rc ∧ val s.rc ≤ s.cfg.nw := by
  have hrc := h.rc_at_wht hp hi hk hd
  have hsucc := whtBefore_succ_of_wht hk hd
  have hle := s.cfg.whtBefore_le (i + 1)
  omega

/-! ### The engine's turn -/

/-- RC after the layer at LP is the round at the pointer it leaves, in either direction (R33 (d), (e)). -/
theorem Inv.rc_after_layer {s t : State} {i : Nat} {kind : Bits 2} {k : Kind} (h : Inv s)
    (hp : s.phase = .run) (hi : layerIndex s = some i) (hk : s.cfg.layers[i]? = some kind)
    (hd : decodeKind kind = some k) (hx : exec (layerInstr s.dir k) s = .next t) :
    val t.rc = roundAt s.cfg (nextPointer s) s.dir := by
  have hrc := h.rc_eq_roundAt hp
  obtain ⟨-, ⟨hdir, hlp⟩ | ⟨hdir, hlp⟩⟩ := layerIndex_eq_some hi
  all_goals
    rw [hdir, hlp, roundAt] at hrc
    simp only [nextPointer, hdir, hlp, roundAt, Nat.add_sub_cancel]
    rw [hdir] at hx
    by_cases hw : k = .wht
  · subst hw
    rw [val_rc_of_exec_whtE hx, hrc, whtBefore_succ_of_wht hk hd, Nat.add_assoc]
  · rw [val_rc_of_exec_layer hw hx, hrc, whtBefore_succ_of_ne_wht hk hd hw]
  · subst hw
    rw [val_rc_of_exec_whtD hx, hrc, whtBefore_succ_of_wht hk hd, Nat.add_sub_cancel]
  · rw [val_rc_of_exec_layer hw hx, hrc, whtBefore_succ_of_ne_wht hk hd hw]

/-- The layer operation at LP keeps the invariants (R33). -/
theorem inv_exec_layer {s t : State} {i : Nat} {kind : Bits 2} {k : Kind} (h : Inv s)
    (hi : layerIndex s = some i) (hk : s.cfg.layers[i]? = some kind) (hd : decodeKind kind = some k)
    (hx : exec (layerInstr s.dir k) s = .next t) : Inv t := by
  have hlp := val_lp_of_exec_layer hx
  have hle := hlp.trans_le (nextPointer_le hi)
  obtain ⟨hp, -, v, rc, ht, -, -⟩ := exec_layer_next hx
  have hrc := h.rc_after_layer hp hi hk hd hx
  have hkey : s.cfg.kend ≤ val s.klen := (h.running hp).2
  subst ht
  refine ⟨hle, hrc.trans_le (roundAt_le _ _ _), ?_, h.neverReserved, fun hrun => ?_⟩
  · simp only [advance_ecode, advance_phase, h.ecode_of_run hp, hp]
    split <;> decide
  · have hend : nextPointer s ≠ endPointer s := by
      intro he
      exact absurd (hrun.symm.trans (if_pos he)) (by decide)
    refine (runInv_iff hle).2 ⟨fun he => hend (hlp.symm.trans he), ?_, hkey⟩
    exact hrc.trans (congrArg (roundAt s.cfg · s.dir) hlp.symm)

theorem inv_engineTurn {s t : State} (h : Inv s) (ht : engineTurn s = .next t) : Inv t := by
  obtain ⟨-, rfl⟩ | ⟨-, i, kind, k, hi, hk, hd, hx⟩ := engineTurn_next ht
  · exact h
  · exact inv_exec_layer h hi hk hd hx

/-- Under the invariants the engine's turn is never stopped: there is a layer at LP, its descriptor is legal,
and a whitening has a round key (R38, R62, R96). -/
theorem engineTurn_completes {s : State} (h : Inv s) : ∃ t, engineTurn s = .next t := by
  by_cases hp : s.phase = .run
  · obtain ⟨i, hi⟩ := h.exists_layerIndex hp
    obtain ⟨kind, k, -, hk, hd⟩ := fetch_of_layerIndex hi
    rw [engineTurn_of_run hp hi hk hd]
    exact exec_layer_completes (fun hw => h.rc_range_at_wht hp hi hk (hw ▸ hd)) hp hi
  · exact ⟨s, engineTurn_of_not_run hp⟩

/-! ### The host's moves -/

/-- The invariants hold of every idle state with its counters at 0 and no error (R34, R135). -/
theorem inv_of_idle {s : State} (hlp : val s.lp = 0) (hrc : val s.rc = 0) (hp : s.phase = .idle)
    (he : s.ecode = .none) : Inv s where
  lpRange := by omega
  rcRange := by omega
  errIff := by simp [he, hp]
  neverReserved := by simp [he]
  running := by simp [hp]

theorem inv_assertReset (s : State) : Inv (assertReset s) :=
  inv_of_idle (by simp) (by simp) rfl rfl

/-- The agenda is not in the invariants. -/
theorem inv_withAgenda {s : State} (h : Inv s) (rest : List (Move s.cfg.busw)) :
    Inv { s with agenda := rest } :=
  ⟨h.lpRange, h.rcRange, h.errIff, h.neverReserved, h.running⟩

theorem inv_hostRead {s : State} (h : Inv s) (sel : Bits 3) : Inv (hostRead s sel) :=
  ⟨h.lpRange, h.rcRange, h.errIff, h.neverReserved, h.running⟩

/-- A register write keeps the invariants: while RUN it is dropped, so KLEN stays long enough (R33 (f),
R43). -/
theorem inv_storeRegister {s : State} (h : Inv s) (sel : Bits 3) (v : Bits s.cfg.busw) :
    Inv (storeRegister s sel v) := by
  obtain he | ⟨hp, st, mk, klen, he⟩ := storeRegister_cases s sel v <;> rw [he]
  · exact h
  · exact ⟨h.lpRange, h.rcRange, h.errIff, h.neverReserved, fun hrun => absurd hrun hp⟩

/-- The fault entry keeps the invariants, with a cause that R28 names (R122). -/
theorem inv_raiseValidationError {s : State} (h : Inv s) {code : ECode} (hnone : code ≠ .none)
    (hres : code ≠ .reserved) : Inv (raiseValidationError code s) :=
  ⟨h.lpRange, h.rcRange, by simp [hnone], hres, by simp⟩

/-- The pointer an accepted START sets (R103, R104). -/
theorem val_lp_beginOperation (d : Dir) (s : State) :
    val (beginOperation d s).lp = match d with | .enc => 0 | .dec => s.cfg.nl := by
  cases d with
  | enc => exact s.cfg.val_pointer (Nat.zero_le _)
  | dec => exact s.cfg.val_pointer le_rfl

/-- The round an accepted START sets is the round at the pointer it sets (R103, R104, R33 (d), (e)). -/
theorem val_rc_beginOperation (d : Dir) (s : State) :
    val (beginOperation d s).rc = roundAt s.cfg (val (beginOperation d s).lp) d := by
  rw [val_lp_beginOperation]
  cases d with
  | enc => exact (s.cfg.val_round (Nat.le_add_left 1 _)).trans (by simp [roundAt, whtBefore_zero])
  | dec => exact s.cfg.val_round (Nat.le_succ _)

/-- An accepted START sets up the invariants of its direction (R103, R104, R33). -/
theorem inv_beginOperation (d : Dir) {s : State} (hkey : s.cfg.kend ≤ val s.klen) :
    Inv (beginOperation d s) := by
  have hnl := s.cfg.nl_pos
  have hlp := val_lp_beginOperation d s
  have hrc := val_rc_beginOperation d s
  have hle : val (beginOperation d s).lp ≤ s.cfg.nl := by
    rw [hlp]
    cases d <;> simp
  have hend : val (beginOperation d s).lp ≠ endPointer (beginOperation d s) := by
    rw [hlp]
    cases d <;> simp only [endPointer, beginOperation_dir, beginOperation_cfg] <;> omega
  exact ⟨hle, hrc.trans_le (roundAt_le _ _ _), by simp, by simp,
    fun _ => (runInv_iff hle).2 ⟨hend, hrc, hkey⟩⟩

theorem inv_startOperation {s : State} (h : Inv s) (d : Dir) : Inv (startOperation d s) := by
  obtain ⟨-, he⟩ | ⟨-, -, he⟩ | ⟨-, -, -, he⟩ | ⟨-, -, hkey, he⟩ := startOperation_cases d s <;>
    rw [he]
  · exact h
  · exact inv_raiseValidationError h (by decide) (by decide)
  · exact inv_raiseValidationError h (by decide) (by decide)
  · exact inv_beginOperation d hkey

theorem inv_hostWrite {s t : State} {sel : Bits 3} {v : Bits s.cfg.busw} (h : Inv s)
    (ht : hostWrite s sel v = .next t) : Inv t := by
  obtain he | ⟨-, -, d, he⟩ | ⟨-, he⟩ := hostWrite_cases s sel v <;>
    obtain rfl := Host.Outcome.next.inj (he.symm.trans ht)
  · exact h
  · exact inv_startOperation h d
  · exact inv_storeRegister h sel v

/-- A host write always completes (R43, R102). -/
theorem hostWrite_completes (s : State) (sel : Bits 3) (v : Bits s.cfg.busw) :
    ∃ t, hostWrite s sel v = .next t := by
  obtain he | ⟨-, -, d, he⟩ | ⟨-, he⟩ := hostWrite_cases s sel v <;> exact ⟨_, he⟩

/-! ### The step -/

theorem inv_step {s t : State} (h : Inv s) (ht : step s = .next t) : Inv t := by
  obtain ⟨u, hu, he⟩ | ⟨sel, rest, -, rfl⟩ | ⟨sel, v, rest, -, he⟩ | ⟨rest, -, rfl⟩ := step_cases ht
  · obtain ⟨rest, rfl⟩ := hu.eq_withAgenda
    exact inv_engineTurn (inv_withAgenda h rest) he
  · exact inv_hostRead (inv_withAgenda h rest) sel
  · exact inv_hostWrite (inv_withAgenda h rest) he
  · exact inv_assertReset _

theorem step_completes {s : State} (h : Inv s) : ∃ t, step s = .next t := by
  match ha : s.agenda with
  | [] =>
    rw [step_of_engineMoves (.inl ⟨ha, rfl⟩)]
    exact engineTurn_completes h
  | .engine :: rest =>
    rw [step_of_engineMoves (.inr ⟨rest, ha, rfl⟩)]
    exact engineTurn_completes (inv_withAgenda h rest)
  | .read sel :: rest => exact ⟨_, step_of_move ha⟩
  | .write sel v :: rest =>
    rw [step_of_move ha]
    exact hostWrite_completes { s with agenda := rest } sel v
  | .reset :: rest => exact ⟨_, step_of_move ha⟩

end Sys2Proof.Machine

/-! The statements about the state: its layout, its invariants and what a step does to PHASE, ECODE, LP and the
key. -/

namespace Sys2Proof.Machine

/-! ### Invariants (R33) -/

/-- Settles O28: each move of either agent keeps the invariants. -/
theorem invKept : Obligations.InvKept := fun _ _ => inv_step

/-- Settles O29: the invariants rule out each of the stops. -/
theorem machineNeverStops : Obligations.MachineNeverStops := fun _ => step_completes

/-- Settles O27: an engine right after reset is idle, with its counters at 0 and no error. -/
theorem invAtReset : Obligations.InvAtReset := fun c =>
  inv_of_idle (s := State.initial c) (by simp [State.initial]) (by simp [State.initial]) rfl rfl

/-- Settles O33: both round counters count the whitenings up to and with the layer. -/
theorem sameRoundBothDirections : Obligations.SameRoundBothDirections := by
  intro s t i hs ht hcfg hps hpt hds hdt hls hlt hwht
  obtain ⟨kind, hk, hd⟩ := Option.bind_eq_some_iff.1 hwht
  have hi : i < s.cfg.nl := (List.getElem?_eq_some_iff.1 hk).1
  have his : layerIndex s = some i := hls ▸ layerIndex_enc hds (by omega)
  have hit : layerIndex t = some i := by
    rw [layerIndex_dec hdt (by omega) ht.lpRange, hlt, Nat.add_sub_cancel]
  refine ⟨?_, hs.rc_range_at_wht hps his hk hd⟩
  rw [hs.rc_at_wht hps his hk hd, ht.rc_at_wht hpt hit (hcfg ▸ hk) hd, hcfg]

/-! ### The layer operations -/

/-- Settles O14: a layer operation is refused without its round key, and is a layer step otherwise. -/
theorem layerOperationsStopWhere : Obligations.LayerOperationsStopWhere := by
  intro d k s
  refine ⟨?_, fun hk hp => ?_, fun hk hp henc hdec => ?_, fun hk hp henc hdec => ?_⟩
  · rintro rfl hr
    exact exec_wht_of_round_undefined d hr
  · obtain ⟨v, rc, he⟩ := exec_layer_eq_layerStep d hk
    rw [he, layerStep_of_not_run hp]
  · obtain ⟨v, rc, he⟩ := exec_layer_eq_layerStep d hk
    rw [he, layerStep_of_no_layer hp (layerIndex_eq_none henc hdec)]
  · obtain ⟨i, hi⟩ := layerIndex_of_range henc hdec
    exact exec_layer_completes hk hp hi

/-- Settles O16: LP becomes the next pointer, which lies inside the sequence. -/
theorem pointerMovesByOne : Obligations.PointerMovesByOne := by
  intro d k s t h
  obtain ⟨-, ⟨i, hi⟩, -⟩ := exec_layer_next h
  have hle := nextPointer_le hi
  rw [val_lp_of_exec_layer h]
  obtain ⟨-, ⟨hdir, hlp⟩ | ⟨hdir, hlp⟩⟩ := layerIndex_eq_some hi <;>
    simp only [nextPointer, hdir] at hle ⊢
  · exact ⟨fun _ => ⟨trivial, hle⟩, nofun⟩
  · exact ⟨nofun, fun _ => by omega⟩

/-! ### One step -/

/-- Settles O7: an empty agenda gives the engine the turn, and it has no step outside RUN. -/
theorem idleStutters : Obligations.IdleStutters := by
  intro s ha hp
  rw [step_of_engineMoves (.inl ⟨ha, rfl⟩), engineTurn_of_not_run hp]

/-- Settles O30: no move of either agent writes the configuration. -/
theorem configurationConstant : Obligations.ConfigurationConstant := by
  intro s t h
  obtain ⟨u, hu, he⟩ | ⟨sel, rest, -, rfl⟩ | ⟨sel, v, rest, -, he⟩ | ⟨rest, -, rfl⟩ := step_cases h
  · obtain ⟨rest, rfl⟩ := hu.eq_withAgenda
    exact (engineTurn_cfg he :)
  · rfl
  · exact (hostWrite_cfg he :)
  · rfl

/-- Settles O32: the engine leaves the key and DIR, a read changes no register, a write is dropped, and reset
gives IDLE. -/
theorem keyFixedWhileRunning : Obligations.KeyFixedWhileRunning := by
  intro s t h hp hidle
  obtain ⟨u, hu, he⟩ | ⟨sel, rest, -, rfl⟩ | ⟨sel, v, rest, -, he⟩ | ⟨rest, -, rfl⟩ := step_cases h
  · obtain ⟨rest, rfl⟩ := hu.eq_withAgenda
    exact (engineTurn_key_dir he :)
  · exact ⟨rfl, rfl, rfl⟩
  · obtain rfl := hostWrite_of_run he hp
    exact ⟨rfl, rfl, rfl⟩
  · exact absurd rfl hidle

/-- A planned reset gives IDLE and no error (R135). -/
theorem step_reset_phase_ecode {s t : State} (h : step s = .next t)
    (ha : s.agenda.head? = some .reset) : t.phase = .idle ∧ t.ecode = .none := by
  obtain ⟨rest, ha⟩ := List.head?_eq_some_iff.1 ha
  rw [step_of_move ha] at h
  obtain rfl := Host.Outcome.next.inj h
  exact ⟨rfl, rfl⟩

/-- While RUN only the engine's last turn, or reset, leaves RUN, and ECODE stays (R27, R28, R106). -/
theorem step_run_phase_ecode {s t : State} (h : step s = .next t)
    (hr : s.agenda.head? ≠ some .reset) (hp : s.phase = .run) :
    t.ecode = s.ecode ∧ t.phase =
      if (s.agenda = [] ∨ s.agenda.head? = some .engine) ∧ val t.lp = endPointer s then .done
      else .run := by
  obtain ⟨u, hu, he⟩ | ⟨sel, rest, ha, rfl⟩ | ⟨sel, v, rest, ha, he⟩ | ⟨rest, ha, -⟩ := step_cases h
  · have hturn : s.agenda = [] ∨ s.agenda.head? = some .engine := by
      obtain ⟨ha, -⟩ | ⟨rest, ha, -⟩ := hu
      · exact .inl ha
      · exact .inr (by rw [ha]; rfl)
    obtain ⟨rest, rfl⟩ := hu.eq_withAgenda
    simp only [hturn, true_and]
    exact (engineTurn_phase_ecode he hp :)
  · simp [ha, hp]
  · obtain rfl := hostWrite_of_run he hp
    simp [ha, hp]
  · exact absurd (by rw [ha]; rfl) hr

/-- A planned START outside RUN gives RUN or ERR by the key length (R103, R104, R121). -/
theorem step_start_phase_ecode {s t : State} (h : step s = .next t) {v : Bits s.cfg.busw}
    (hp : s.phase ≠ .run) (ha : s.agenda.head? = some (.write 0 v))
    (hv : (val v).testBit 0 = true) :
    if s.cfg.kend ≤ val s.klen then t.phase = .run ∧ t.ecode = .none
    else t.phase = .err ∧ t.ecode = if val s.klen < s.cfg.L then .keyShort else .keyRange := by
  obtain ⟨rest, ha⟩ := List.head?_eq_some_iff.1 ha
  rw [step_of_move ha] at h
  obtain ⟨d, he⟩ := hostWrite_start { s with agenda := rest } hv
  obtain rfl := Host.Outcome.next.inj (he.symm.trans h)
  exact startOperation_phase_ecode (s := { s with agenda := rest }) d hp

/-- Outside RUN every move but a START and reset leaves PHASE and ECODE (R27, R28). -/
theorem step_other_phase_ecode {s t : State} (h : step s = .next t) (hp : s.phase ≠ .run)
    (hr : s.agenda.head? ≠ some .reset)
    (hv : ∀ v, s.agenda.head? = some (.write 0 v) → (val v).testBit 0 = false) :
    t.phase = s.phase ∧ t.ecode = s.ecode := by
  obtain ⟨u, hu, he⟩ | ⟨sel, rest, -, rfl⟩ | ⟨sel, v, rest, ha, he⟩ | ⟨rest, ha, -⟩ := step_cases h
  · obtain ⟨rest, rfl⟩ := hu.eq_withAgenda
    obtain rfl := Host.Outcome.next.inj (he.symm.trans (engineTurn_of_not_run hp))
    exact ⟨rfl, rfl⟩
  · exact ⟨rfl, rfl⟩
  · have hnot : sel = 0 → (val v).testBit 0 = false := by
      rintro rfl
      exact hv v (by rw [ha]; rfl)
    exact (hostWrite_phase_ecode he hnot :)
  · exact absurd (by rw [ha]; rfl) hr

/-- Settles O31: by the next move and PHASE. -/
theorem phaseTransitions : Obligations.PhaseTransitions := fun _ _ h =>
  ⟨step_reset_phase_ecode h, step_run_phase_ecode h, fun _ => step_start_phase_ecode h,
    step_other_phase_ecode h⟩

/-! ### The layout of STATUS and the launch state -/

/-- The value of a concatenation (R16). -/
theorem val_append {m n : Nat} (a : Bits m) (b : Bits n) : val (a ++ b) = val a * 2 ^ n + val b := by
  rw [val, BitVec.toNat_append, Nat.shiftLeft_eq, Nat.mul_comm, ← Nat.two_pow_add_eq_or_of_lt b.isLt]

/-- STATUS is a concatenation, with DIR from bit 2 and ECODE from bit 4 (R29). -/
theorem val_statusWord (s : State) : val (statusWord s) =
    val (phaseBits s.phase) + 4 * val s.dir.bit + 16 * val (ecodeBits s.ecode) := by
  have hzero (n : Nat) : val (0 : Bits n) = 0 := by simp
  simp only [statusWord, val_append, hzero]
  omega

/-- Settles O22: field by field, from the codes of PHASE, DIR and ECODE. -/
theorem statusLayout : Obligations.StatusLayout := by
  intro s
  have hphase : val (phaseBits s.phase) =
      match s.phase with | .idle => 0 | .run => 1 | .done => 2 | .err => 3 := by
    cases s.phase <;> rfl
  have hdir : val s.dir.bit = match s.dir with | .enc => 0 | .dec => 1 := by
    cases s.dir <;> rfl
  have hecode : val (ecodeBits s.ecode) =
      match s.ecode with | .none => 0 | .keyShort => 1 | .keyRange => 2 | .reserved => 3 := by
    cases s.ecode <;> rfl
  have hval := val_statusWord s
  rw [hphase, hdir, hecode] at hval
  exact hval

/-- Settles O26: the registers at reset and the parameters of SPN16-R4, none of which reads the wiring. -/
theorem launchState : Obligations.LaunchState := by
  have htables : ∀ i < 4,
      State.reset.cfg.forwardTable i =
        [0xC, 0x5, 0x6, 0xB, 0x9, 0x0, 0xA, 0xD, 0x3, 0xE, 0xF, 0x8, 0x4, 0x7, 0x1, 0x2] ∧
      State.reset.cfg.backwardTable i =
        [0x5, 0xE, 0xF, 0x8, 0xC, 0x1, 0x2, 0xD, 0xB, 0x4, 0x6, 0x3, 0x0, 0x7, 0x9, 0xA] := by
    decide
  exact ⟨rfl, rfl, rfl, rfl, rfl, rfl, rfl, rfl, rfl, rfl, rfl, rfl, rfl, rfl, rfl, rfl, rfl, htables, rfl⟩

end Sys2Proof.Machine

/-! What the host's accesses do, one lemma per register number, and the engine's turn by its fetch. -/

namespace Sys2Proof.Machine

/-! ### The host's read (R42) -/

/-- Every host register except KLEN fits the bus (R13). -/
theorem registers_fit_bus (c : Config) : 8 ≤ c.busw ∧ c.L ≤ c.busw ∧ c.mkw ≤ c.busw := by
  have h := c.widths.2.2.2.2
  omega

theorem val_readValue_status (s : State) : val (readValue s 1) = val (statusWord s) :=
  val_setWidth_of_le _ (registers_fit_bus s.cfg).1

/-- While RUN a read of ST is free, and still an `L`-bit value (R42, U2). -/
theorem val_readValue_st_lt (s : State) : val (readValue s 2) < 2 ^ s.cfg.L := by
  have hL := (registers_fit_bus s.cfg).2.1
  have hval : ∃ v : Bits s.cfg.L, readValue s 2 = v.setWidth s.cfg.busw := by
    by_cases hp : s.phase = .run
    · exact ⟨_, if_pos hp⟩
    · exact ⟨_, if_neg hp⟩
  obtain ⟨v, hv⟩ := hval
  rw [hv, val_setWidth_of_le v hL]
  exact v.isLt

theorem val_readValue_st {s : State} (hp : s.phase ≠ .run) : val (readValue s 2) = val s.st := by
  have hread : readValue s 2 = s.st.setWidth s.cfg.busw := if_neg hp
  rw [hread, val_setWidth_of_le _ (registers_fit_bus s.cfg).2.1]

theorem val_readValue_mk (s : State) : val (readValue s 3) = val s.mk :=
  val_setWidth_of_le _ (registers_fit_bus s.cfg).2.2

theorem val_readValue_klen {s : State} (h : s.cfg.klw ≤ s.cfg.busw) :
    val (readValue s 4) = val s.klen :=
  val_setWidth_of_le _ h

/-- CTRL and the reserved numbers read as zero (R42). -/
theorem readValue_of_no_register (s : State) {sel : Bits 3} (h1 : sel ≠ 1) (h2 : sel ≠ 2)
    (h3 : sel ≠ 3) (h4 : sel ≠ 4) : readValue s sel = 0 := by
  unfold readValue
  split
  · exact absurd (BitVec.eq_of_toNat_eq ‹_›) h1
  · exact absurd (BitVec.eq_of_toNat_eq ‹_›) h2
  · exact absurd (BitVec.eq_of_toNat_eq ‹_›) h3
  · exact absurd (BitVec.eq_of_toNat_eq ‹_›) h4
  · rfl

/-- A planned read is made by the next step (R42). -/
theorem step_of_read {s : State} {sel : Bits 3} {rest : List (Move s.cfg.busw)}
    (ha : s.agenda = .read sel :: rest) : step s = .next (hostRead { s with agenda := rest } sel) :=
  step_of_move ha

/-! ### The host's write (R43) -/

/-- A write to CTRL is the command of its value (R102). -/
theorem hostWrite_ctrl (s : State) (v : Bits s.cfg.busw) :
    hostWrite s 0 v = exec (decodeCommand (val v)) s :=
  if_pos rfl

theorem hostWrite_register (s : State) {sel : Bits 3} (h : sel ≠ 0) (v : Bits s.cfg.busw) :
    hostWrite s sel v = .next (storeRegister s sel v) :=
  if_neg h

theorem storeRegister_of_run {s : State} (hp : s.phase = .run) (sel : Bits 3)
    (v : Bits s.cfg.busw) : storeRegister s sel v = s :=
  if_pos hp

theorem storeRegister_st {s : State} (hp : s.phase ≠ .run) (v : Bits s.cfg.busw) :
    storeRegister s 2 v = { s with st := bitsOf s.cfg.L (val v) } := by
  rw [← setWidth_eq_bitsOf]
  exact if_neg hp

theorem storeRegister_mk {s : State} (hp : s.phase ≠ .run) (v : Bits s.cfg.busw) :
    storeRegister s 3 v = { s with mk := bitsOf s.cfg.mkw (val v) } := by
  rw [← setWidth_eq_bitsOf]
  exact if_neg hp

theorem storeRegister_klen {s : State} (hp : s.phase ≠ .run) (v : Bits s.cfg.busw) :
    storeRegister s 4 v = { s with klen := bitsOf s.cfg.klw (val v) } := by
  rw [← setWidth_eq_bitsOf]
  exact if_neg hp

/-- STATUS and the reserved numbers ignore a write, in every phase (R43). -/
theorem storeRegister_ignored (s : State) {sel : Bits 3} (h2 : sel ≠ 2) (h3 : sel ≠ 3)
    (h4 : sel ≠ 4) (v : Bits s.cfg.busw) : storeRegister s sel v = s := by
  unfold storeRegister
  split
  · rfl
  split
  · exact absurd (BitVec.eq_of_toNat_eq ‹_›) h2
  · exact absurd (BitVec.eq_of_toNat_eq ‹_›) h3
  · exact absurd (BitVec.eq_of_toNat_eq ‹_›) h4
  · rfl

/-- A planned write is made by the next step (R43). -/
theorem step_of_write {s : State} {sel : Bits 3} {v : Bits s.cfg.busw}
    {rest : List (Move s.cfg.busw)} (ha : s.agenda = .write sel v :: rest) :
    step s = hostWrite { s with agenda := rest } sel v :=
  step_of_move ha

/-- A planned write to CTRL runs the command of its value (R102). -/
theorem step_of_write_ctrl {s : State} {v : Bits s.cfg.busw} {rest : List (Move s.cfg.busw)}
    (ha : s.agenda = .write 0 v :: rest) :
    step s = exec (decodeCommand (val v)) { s with agenda := rest } :=
  (step_of_write ha).trans (hostWrite_ctrl { s with agenda := rest } v)

/-- A planned write to another register is one register write (R43). -/
theorem step_of_write_register {s t : State} {sel : Bits 3} {v : Bits s.cfg.busw}
    {rest : List (Move s.cfg.busw)} (ha : s.agenda = .write sel v :: rest) (hsel : sel ≠ 0)
    (ht : storeRegister { s with agenda := rest } sel v = t) : step s = .next t := by
  rw [step_of_write ha, hostWrite_register _ hsel, ht]

/-! ### The engine's turn -/

/-- While RUN the engine's turn is the instruction its fetch decodes to (R106). -/
theorem engineTurn_of_fetch {s : State} {kind : Bits 2} {i : Instr} (hp : s.phase = .run)
    (hf : fetch s = some kind) (hd : decodeOpcode (effectiveOpcode s.dir kind) = .ok i) :
    engineTurn s = exec i s := by
  simp only [engineTurn, if_pos hp, hf, hd]

end Sys2Proof.Machine

/-! What an operation in RUN ends with: the layers still to come, their effect on ST, and that no move of either
agent but reset changes it. -/

namespace Sys2Proof.Machine

/-! ### The layers still to come -/

/-- How many layers are still to come (R25). -/
def layersLeft (s : State) : Nat :=
  match s.dir with
  | .enc => s.cfg.nl - val s.lp
  | .dec => val s.lp

/-- The kinds of the layers still to come, in the order they are executed (R106). -/
def kindsLeft (s : State) : List Kind :=
  match s.dir with
  | .enc => (s.cfg.layers.drop (val s.lp)).filterMap decodeKind
  | .dec => ((s.cfg.layers.take (val s.lp)).filterMap decodeKind).reverse

/-- The loop of `Enc` or of `Dec` (R110, R111). -/
def runLayers : Dir → (c : Config) → {w : Nat} → Bits w → List Kind → Nat → Bits c.L → Bits c.L
  | .enc => encLayers
  | .dec => decLayers

/-- The operation as a function of the block and the master key (R110, R111). -/
def cipher : Dir → (c : Config) → {w : Nat} → Bits w → Bits c.L → Bits c.L
  | .enc => enc
  | .dec => dec

/-- What ST holds once the layers still to come have run. -/
def outcome (s : State) : Bits s.cfg.L :=
  runLayers s.dir s.cfg s.mk (kindsLeft s) (val s.rc) s.st

/-- No layer is left exactly when LP is at its end (R106). -/
theorem layersLeft_eq_zero_iff {s : State} (hlp : val s.lp ≤ s.cfg.nl) :
    layersLeft s = 0 ↔ val s.lp = endPointer s := by
  cases hd : s.dir <;> simp only [layersLeft, endPointer, hd]
  omega

/-- While RUN there is a layer still to come (R33 (d), (e)). -/
theorem Inv.layersLeft_ne_zero {s : State} (h : Inv s) (hp : s.phase = .run) : layersLeft s ≠ 0 :=
  mt (layersLeft_eq_zero_iff h.lpRange).1 ((runInv_iff h.lpRange).1 (h.running hp)).1

/-- The pointer update leaves one layer fewer to come (R25, R106). -/
theorem layersLeft_advance {s : State} {i : Nat} (hi : layerIndex s = some i) :
    layersLeft s = layersLeft (advance s) + 1 := by
  have hnext := val_nextPointer hi
  obtain ⟨hlt, ⟨hd, hlp⟩ | ⟨hd, hlp⟩⟩ := layerIndex_eq_some hi <;>
    simp only [layersLeft, advance_dir, advance_lp, advance_cfg, nextPointer, hd] at hnext ⊢ <;>
    omega

/-- The layer at LP is the first of those still to come, and the pointer update leaves the others
(R38, R106). -/
theorem kindsLeft_eq_cons {s : State} {i : Nat} {kind : Bits 2} {k : Kind}
    (hi : layerIndex s = some i) (hk : s.cfg.layers[i]? = some kind)
    (hd : decodeKind kind = some k) : kindsLeft s = k :: kindsLeft (advance s) := by
  have hnext := val_nextPointer hi
  obtain ⟨-, ⟨hdir, hlp⟩ | ⟨hdir, hlp⟩⟩ := layerIndex_eq_some hi <;>
    simp only [kindsLeft, advance_dir, advance_lp, advance_cfg, nextPointer, hdir, hlp,
      Nat.add_sub_cancel] at hnext ⊢ <;>
    rw [hnext]
  · obtain ⟨hlt, hget⟩ := List.getElem?_eq_some_iff.1 hk
    rw [List.drop_eq_getElem_cons hlt, hget, List.filterMap_cons_some hd]
  · simp [List.take_add_one, hk, hd]

/-- With no layer left, ST is the outcome. -/
theorem outcome_of_none_left {s : State} (h : layersLeft s = 0) : outcome s = s.st := by
  cases hd : s.dir <;> simp only [layersLeft, hd] at h
  · have hdrop : s.cfg.layers.drop (val s.lp) = [] :=
      List.drop_eq_nil_of_le (Nat.sub_eq_zero_iff_le.1 h)
    simp [outcome, kindsLeft, runLayers, hd, hdrop, encLayers]
  · simp [outcome, kindsLeft, runLayers, hd, h, decLayers]

/-- An accepted START has all `NL` layers to come (R103, R104). -/
theorem layersLeft_beginOperation (d : Dir) (s : State) :
    layersLeft (beginOperation d s) = s.cfg.nl := by
  have hlp := val_lp_beginOperation d s
  cases d with
  | enc => exact congrArg (s.cfg.nl - ·) hlp
  | dec => exact hlp

/-- An accepted START is to end with `Enc` or `Dec` of ST under MK (R110, R111, R114). -/
theorem outcome_beginOperation (d : Dir) (s : State) :
    outcome (beginOperation d s) = cipher d s.cfg s.mk s.st := by
  have hlp := val_lp_beginOperation d s
  have hrc : val (beginOperation d s).rc = match d with | .enc => 1 | .dec => s.cfg.nw := by
    rw [val_rc_beginOperation, hlp]
    cases d
    · simp [roundAt, whtBefore_zero]
    · rfl
  have hkinds : kindsLeft (beginOperation d s) =
      match d with | .enc => s.cfg.kinds | .dec => s.cfg.kinds.reverse := by
    cases d with
    | enc => exact congrArg (fun n => (s.cfg.layers.drop n).filterMap decodeKind) hlp
    | dec =>
      refine (congrArg (fun n => ((s.cfg.layers.take n).filterMap decodeKind).reverse) hlp).trans ?_
      simp [Params.kinds, Params.nl]
  unfold outcome
  rw [hrc, hkinds]
  cases d <;> rfl

/-! ### The layer operation at LP -/

/-- A layer operation that completes is one round of the loop of its direction, on ST and RC
(R110, R111). -/
theorem exec_layer_eq_runLayers {d : Dir} {k : Kind} {s t : State}
    (h : exec (layerInstr d k) s = .next t) :
    ∃ v rc, t = advance { s with st := v, rc := rc } ∧
      ∀ ks, runLayers d s.cfg s.mk (k :: ks) (val s.rc) s.st =
        runLayers d s.cfg s.mk ks (val rc) v := by
  cases k with
  | sub | perm =>
    cases d <;> obtain ⟨-, -, ht⟩ := layerStep_next (h : layerStep _ _ _ = _) <;>
      exact ⟨_, _, ht, fun _ => rfl⟩
  | wht =>
    obtain ⟨-, -, _, _, -, -, hround⟩ := exec_layer_next h
    obtain ⟨h1, h2, -⟩ := hround rfl
    have hkey := roundKey_of_range h1 h2
    cases d
    all_goals
      simp only [layerInstr, exec, execWhtE, execWhtD, hkey] at h
      obtain ⟨-, -, ht⟩ := layerStep_next h
      refine ⟨_, _, ht, fun ks => ?_⟩
      rw [s.cfg.val_round (by omega)]
      rfl

/-- The engine's turn in RUN executes one of the layers still to come and keeps the outcome; it ends the
operation when it leaves none (R106). -/
theorem engineTurn_keeps_outcome {s t : State} (hp : s.phase = .run) (h : engineTurn s = .next t) :
    (∃ v rc lp p, t = { s with st := v, rc := rc, lp := lp, phase := p }) ∧
      layersLeft s = layersLeft t + 1 ∧
      t.phase = (if layersLeft t = 0 then .done else .run) ∧ val (outcome t) = val (outcome s) := by
  obtain ⟨hne, -⟩ | ⟨-, i, kind, k, hi, hk, hd, hx⟩ := engineTurn_next h
  · exact absurd hp hne
  obtain ⟨v, rc, ht, hrun⟩ := exec_layer_eq_runLayers hx
  have hle : val t.lp ≤ t.cfg.nl := by
    rw [val_lp_of_exec_layer hx, engineTurn_cfg h]
    exact nextPointer_le hi
  have hphase := (engineTurn_phase_ecode h hp).2
  have hkinds := kindsLeft_eq_cons (s := { s with st := v, rc := rc }) hi hk hd
  have hleft := layersLeft_advance (s := { s with st := v, rc := rc }) hi
  have hend := layersLeft_eq_zero_iff hle
  subst ht
  refine ⟨⟨v, rc, _, _, rfl⟩, hleft, ?_, ?_⟩
  · rw [hphase]
    exact if_congr hend.symm rfl rfl
  · have hstart : outcome s = runLayers s.dir s.cfg s.mk
        (k :: kindsLeft (advance { s with st := v, rc := rc })) (val s.rc) s.st :=
      congrArg (runLayers s.dir s.cfg s.mk · (val s.rc) s.st) hkinds
    rw [hstart, hrun]
    rfl

/-! ### The moves of both agents -/

/-- While RUN a planned read or write of the host leaves every register (R42, R43, R102). -/
theorem step_host_of_run {s : State} {m : Move s.cfg.busw} {rest : List (Move s.cfg.busw)}
    (hp : s.phase = .run) (ha : s.agenda = m :: rest) (hengine : m ≠ .engine) (hreset : m ≠ .reset) :
    ∃ r n, step s = .next { s with agenda := rest, rdata := r, draws := n } := by
  cases m with
  | engine => exact absurd rfl hengine
  | read sel => exact ⟨_, _, step_of_read ha⟩
  | write sel v =>
    obtain ⟨t, ht⟩ := hostWrite_completes { s with agenda := rest } sel v
    have hs := hostWrite_of_run ht hp
    exact ⟨s.rdata, s.draws, by rw [step_of_write ha, ht, hs]⟩
  | reset => exact absurd rfl hreset

/-- While RUN every planned move but reset is made without a stop, keeps the outcome, and leaves the key, DIR
and ECODE; an engine turn executes one of the layers still to come, and the operation is over when none is
left (R106, R113). -/
theorem step_keeps_outcome {s : State} {m : Move s.cfg.busw} {rest : List (Move s.cfg.busw)} (h : Inv s)
    (hp : s.phase = .run) (ha : s.agenda = m :: rest) (hreset : m ≠ .reset) :
    ∃ t, step s = .next t ∧
      (∃ v rc lp p r n, t = { s with
        agenda := rest, st := v, rc := rc, lp := lp, phase := p, rdata := r, draws := n }) ∧
      layersLeft s = layersLeft t + (if m == .engine then 1 else 0) ∧
      t.phase = (if layersLeft t = 0 then .done else .run) ∧ val (outcome t) = val (outcome s) := by
  by_cases hm : m = .engine
  · subst hm
    obtain ⟨t, ht⟩ := engineTurn_completes (inv_withAgenda h rest)
    obtain ⟨⟨v, rc, lp, p, hframe⟩, hturn⟩ :=
      engineTurn_keeps_outcome (s := { s with agenda := rest }) hp ht
    exact ⟨t, (step_of_engineMoves (.inr ⟨rest, ha, rfl⟩)).trans ht,
      ⟨v, rc, lp, p, s.rdata, s.draws, hframe⟩, hturn⟩
  · obtain ⟨r, n, hstep⟩ := step_host_of_run hp ha hm hreset
    have hzero : (if m == .engine then 1 else 0) = 0 := if_neg (mt eq_of_beq hm)
    refine ⟨_, hstep, ⟨_, _, _, _, r, n, rfl⟩, ?_, ?_, rfl⟩
    · rw [hzero]
      rfl
    · exact hp.trans (if_neg (h.layersLeft_ne_zero hp)).symm

/-- In RUN, moves without reset up to the engine's last turn lead to DONE with the outcome in ST and the key,
DIR and ECODE as they were (R113, R114). -/
theorem stepsTo_outcome {s : State} (h : Inv s) (hp : s.phase = .run)
    {ms rest : List (Move s.cfg.busw)} (ha : s.agenda = ms ++ .engine :: rest) (hreset : .reset ∉ ms)
    (hcount : ms.count .engine + 1 = layersLeft s) :
    ∃ rc lp r n, stepsTo (ms.length + 1) s { s with
      agenda := rest, st := outcome s, rc := rc, lp := lp, phase := .done, rdata := r, draws := n } := by
  match ms with
  | [] =>
    obtain ⟨_, hstep, ⟨v, rc, lp, p, r, n, rfl⟩, hleft, hphase, hout⟩ := step_keeps_outcome h hp ha nofun
    have hnone := Nat.succ.inj (hleft.symm.trans hcount.symm)
    obtain rfl : p = .done := hphase.trans (if_pos hnone)
    obtain rfl : v = outcome s :=
      BitVec.eq_of_toNat_eq ((congrArg val (outcome_of_none_left hnone)).symm.trans hout)
    exact ⟨rc, lp, r, n, _, hstep, rfl⟩
  | m :: ms =>
    obtain ⟨hm, hms⟩ := not_or.1 (mt List.mem_cons.2 hreset)
    obtain ⟨t, hstep, ⟨v, rc, lp, p, r, n, ht⟩, hleft, hphase, hout⟩ :=
      step_keeps_outcome h hp ha (Ne.symm hm)
    rw [List.count_cons] at hcount
    have hms_count : ms.count .engine + 1 = layersLeft t := by omega
    have hrun : t.phase = .run := hphase.trans (if_neg (by omega))
    have hinv := inv_step h hstep
    subst ht
    obtain ⟨rc', lp', r', n', hsteps⟩ := stepsTo_outcome hinv hrun rfl hms hms_count
    rw [BitVec.eq_of_toNat_eq (y := outcome s) hout] at hsteps
    exact ⟨rc', lp', r', n', _, hstep, hsteps⟩
termination_by ms.length

/-- An accepted START begins its operation (R103, R104). -/
theorem startOperation_accepted (d : Dir) {s : State} (hp : s.phase ≠ .run)
    (hL : s.cfg.L ≤ val s.klen) (hkey : s.cfg.kend ≤ val s.klen) :
    startOperation d s = beginOperation d s := by
  obtain ⟨hr, -⟩ | ⟨-, hs, -⟩ | ⟨-, -, hs, -⟩ | ⟨-, -, -, he⟩ := startOperation_cases d s
  · exact absurd hr hp
  · omega
  · omega
  · exact he

end Sys2Proof.Machine

/-! The statements about the register space and the agents' moves. -/

namespace Sys2Proof.Machine

/-- Settles O50: an accepted START sets up the invariants with all `NL` layers to come and Enc or Dec as the
outcome, which every move up to the last engine turn keeps. -/
theorem interleavedRun : Obligations.InterleavedRun := by
  intro s d ms ha hp hL hkey hreset hcount
  have hstart : exec (match d with | .enc => .startEnc | .dec => .startDec) s =
      .next (beginOperation d s) := by
    rw [← startOperation_accepted d hp hL hkey]
    cases d <;> rfl
  obtain ⟨rc, lp, r, n, hsteps⟩ := stepsTo_outcome (inv_beginOperation d hkey) rfl ha
    hreset (hcount.trans (layersLeft_beginOperation d s).symm)
  refine ⟨_, _, hstart, hsteps, rfl, rfl, (congrArg val (outcome_beginOperation d s)).trans ?_⟩
  cases d <;> rfl

/-- Settles O23: by the register number, in the order of the statement. -/
theorem hostReadReturns : Obligations.HostReadReturns := by
  intro s sel rest ha
  refine ⟨readValue { s with agenda := rest } sel, _, step_of_read ha, ?_⟩
  split_ifs with h1 h2 h3 h4
  · subst h1
    exact val_readValue_status _
  · subst h2
    exact ⟨val_readValue_st_lt _, fun hp => val_readValue_st hp⟩
  · subst h3
    exact val_readValue_mk _
  · subst h4
    exact fun hw => val_readValue_klen hw
  · rw [readValue_of_no_register _ h1 h2 h3 h4]
    exact BitVec.toNat_zero

/-- Settles O5: the engine's turn is next, and it runs what its fetch decodes to. -/
theorem stepRunsFetchedLayer : Obligations.StepRunsFetchedLayer := by
  intro s u kind i hu hp hf hd
  have hup : u.phase = .run := by
    obtain ⟨rest, rfl⟩ := EngineMoves.eq_withAgenda hu
    exact hp
  rw [step_of_engineMoves hu, engineTurn_of_fetch hup hf hd]

/-- Settles O6: a write to CTRL is its command. -/
theorem stepRunsCommand : Obligations.StepRunsCommand := fun _ _ _ => step_of_write_ctrl

/-- Settles O24: a command, a write dropped while RUN, a register stored, or a number that ignores writes. -/
theorem hostWriteStores : Obligations.HostWriteStores := by
  intro s sel v rest ha
  refine ⟨?_, fun hsel hp => ?_, fun hp => ?_⟩
  · rintro rfl
    exact step_of_write_ctrl ha
  · have hp : ({ s with agenda := rest } : State).phase = .run := hp
    exact step_of_write_register ha hsel (storeRegister_of_run hp sel v)
  have hp : ({ s with agenda := rest } : State).phase ≠ .run := hp
  refine ⟨?_, ?_, ?_, fun hsel => ?_⟩
  · rintro rfl
    exact step_of_write_register ha (by decide) (storeRegister_st hp v)
  · rintro rfl
    exact step_of_write_register ha (by decide) (storeRegister_mk hp v)
  · rintro rfl
    exact step_of_write_register ha (by decide) (storeRegister_klen hp v)
  · obtain ⟨h0, h2, h3, h4⟩ : sel ≠ 0 ∧ sel ≠ 2 ∧ sel ≠ 3 ∧ sel ≠ 4 := by
      obtain rfl | rfl | rfl | rfl := hsel <;> decide
    exact step_of_write_register ha h0 (storeRegister_ignored { s with agenda := rest } h2 h3 h4 v)

end Sys2Proof.Machine

/-! The statements about the encodings, the value of a chunk and the bits of a round key. -/

namespace Sys2Proof.Machine

/-! ### Vectors as sums of their bits (R16, R58) -/

/-- The integer built from its bits is their sum by weight (R16). -/
theorem natOfBits_eq_sum (n : Nat) (f : Nat → Bool) :
    natOfBits n f = (Finset.range n).sum fun j => (f j).toNat * 2 ^ j := by
  induction n with
  | zero => rfl
  | succ n ih => rw [natOfBits, Finset.sum_range_succ, ih]

/-- A chunk's value is built from the `k` bits from index `i * k` (R58). -/
theorem chunkVal_eq_natOfBits {n : Nat} (k : Nat) (v : Bits n) (i : Nat) :
    chunkVal k v i = natOfBits k fun j => v.getLsbD (i * k + j) :=
  Nat.eq_of_testBit_eq fun j => by rw [testBit_chunkVal, testBit_natOfBits]

/-- Settles O34: the chunk's value has the bits of the sum. -/
theorem chunkValueIsSum : Obligations.ChunkValueIsSum := fun _ k i v =>
  (chunkVal_eq_natOfBits k v i).trans (natOfBits_eq_sum k _)

/-- Settles O41: each bit index below `KSIZE` is inside the slice. -/
theorem roundKeyBits : Obligations.RoundKeyBits := by
  intro c w mk r i hr hi hw
  rw [getLsbD_keySchedule c mk hr hw, decide_eq_true hi, Bool.true_and]

/-! ### The decoder (R60, R61, R62) -/

/-- A command word is decoded from its bits 1:0 (R61). -/
theorem decodeCommand_mod_four (v : Nat) : decodeCommand (v % 4) = decodeCommand v := by
  have hbit (j : Nat) (hj : j < 2) : (v % 4).testBit j = v.testBit j := by
    rw [Nat.testBit_mod_two_pow v 2 j, decide_eq_true hj, Bool.true_and]
  rw [decodeCommand, decodeCommand, hbit 0 (by decide), hbit 1 (by decide)]

/-- The value of an effective opcode is DIR in bit 2 and the descriptor below it (R55). -/
theorem val_effectiveOpcode (d : Dir) (kind : Bits 2) :
    val (effectiveOpcode d kind) = 4 * val d.bit + val kind := by
  rw [effectiveOpcode, val_append, Nat.mul_comm]
  rfl

/-- Settles O1: instruction by instruction. -/
theorem decodeOfEncode : Obligations.DecodeOfEncode := by
  intro i
  cases i <;> rfl

/-- Settles O2: each legal word has the low bits of its row of the opcode table, and descriptor `0b00` is in
no row. -/
theorem specWordsDecode : Obligations.SpecWordsDecode :=
  ⟨(Laws.TableRow.subE _).2 rfl, (Laws.TableRow.permE _).2 rfl, (Laws.TableRow.whtE _).2 rfl,
    (Laws.TableRow.subD _).2 rfl, (Laws.TableRow.permD _).2 rfl, (Laws.TableRow.whtD _).2 rfl, rfl, rfl,
    (Laws.TableRow.startEnc _).2 rfl, (Laws.TableRow.startDec _).2 rfl, (Laws.TableRow.nop _).2 rfl,
    (Laws.TableRow.nop _).2 rfl, (Laws.TableRow.startEnc _).2 rfl⟩

/-- Settles O3: the four values of bits 1:0 stand for every command word. -/
theorem commandMap : Obligations.CommandMap := by
  intro v
  have hlow : ∀ x < 4, decodeCommand x =
      if x = 1 then .startEnc else if x = 3 then .startDec else .nop := by decide
  rw [← decodeCommand_mod_four v]
  exact hlow (v % 4) (Nat.mod_lt _ (by decide))

/-- Settles O4: the value by the two directions, the table over the eight opcodes. -/
theorem opcodeMap : Obligations.OpcodeMap := by
  refine ⟨fun d kind => ?_, by decide⟩
  rw [val_effectiveOpcode]
  cases d <;> rfl

end Sys2Proof.Machine

/-! The statements about the substitution: the tables of a configuration, SUB.E and SUB.D, and the frame of the
layer operations. -/

namespace Sys2Proof.Machine

/-! ### The tables of a configuration (R67, R68) -/

/-- The inverse table undoes the forward table (R68). -/
theorem tableRead_backward_forward (c : Config) {i x : Nat} (hi : i < c.N) (hx : x < 2 ^ c.k) :
    tableRead (c.backwardTable i) (tableRead (c.forwardTable i) x) = x := by
  obtain ⟨hlen, -, hnd⟩ := c.table hi
  have hx' : x < (c.forwardTable i).length := hlen ▸ hx
  have hread : tableRead (c.forwardTable i) x = (c.forwardTable i)[x] :=
    List.getD_eq_getElem _ _ hx'
  rw [tableRead_backward c (tableRead_forward_lt c hi hx), hread, hnd.idxOf_getElem x hx']

/-- The forward table undoes the inverse table (R68). -/
theorem tableRead_forward_backward (c : Config) {i y : Nat} (hi : i < c.N) (hy : y < 2 ^ c.k) :
    tableRead (c.forwardTable i) (tableRead (c.backwardTable i) y) = y := by
  obtain ⟨hlen, hlt, hnd⟩ := c.table hi
  have hidx : (c.forwardTable i).idxOf y < (c.forwardTable i).length :=
    List.idxOf_lt_length_of_mem (mem_of_nodup_lt hlen hlt hnd hy)
  rw [tableRead_backward c hy, tableRead, List.getD_eq_getElem _ _ hidx, List.getElem_idxOf]

/-- Settles O35. -/
theorem inverseTables : Obligations.InverseTables := fun c _ _ hi hx =>
  ⟨tableRead_backward_forward c hi hx, tableRead_forward_backward c hi hx⟩

/-- Settles O42: the preimage is the entry of the inverse table. -/
theorem sboxIsBijection : Obligations.SboxIsBijection := by
  intro c i hi y hy
  refine ⟨tableRead (c.backwardTable i) y,
    ⟨tableRead_backward_lt c hi hy, tableRead_forward_backward c hi hy⟩, ?_⟩
  rintro x ⟨hx, rfl⟩
  exact (tableRead_backward_forward c hi hx).symm

/-! ### The S-box and the substitution layer (R70, R71, R73, R74) -/

/-- The value of `sbox_enc` is the entry of the forward table (R70). -/
theorem val_sboxEnc (c : Config) {i : Nat} (hi : i < c.N) (x : Bits c.k) :
    val (sboxEnc c i x) = tableRead (c.forwardTable i) (val x) :=
  (BitVec.toNat_ofNat _ _).trans (Nat.mod_eq_of_lt (tableRead_forward_lt c hi x.isLt))

/-- The value of `sbox_dec` is the entry of the inverse table (R71). -/
theorem val_sboxDec (c : Config) {i : Nat} (hi : i < c.N) (x : Bits c.k) :
    val (sboxDec c i x) = tableRead (c.backwardTable i) (val x) :=
  (BitVec.toNat_ofNat _ _).trans (Nat.mod_eq_of_lt (tableRead_backward_lt c hi x.isLt))

/-- `SubE` puts every chunk through its forward table (R73). -/
theorem chunkVal_subE (c : Config) (v : Bits c.L) {i : Nat} (hi : i < c.N) :
    chunkVal c.k (subE c v) i = tableRead (c.forwardTable i) (chunkVal c.k v i) :=
  chunkVal_mapChunks c.chunk_mul c.forwardTable v hi (tableRead_forward_lt c hi (chunkVal_lt c.k v i))

/-- `SubD` puts every chunk through its inverse table (R74). -/
theorem chunkVal_subD (c : Config) (v : Bits c.L) {i : Nat} (hi : i < c.N) :
    chunkVal c.k (subD c v) i = tableRead (c.backwardTable i) (chunkVal c.k v i) :=
  chunkVal_mapChunks c.chunk_mul c.backwardTable v hi
    (tableRead_backward_lt c hi (chunkVal_lt c.k v i))

theorem sboxDec_sboxEnc (c : Config) {i : Nat} (hi : i < c.N) (x : Bits c.k) :
    sboxDec c i (sboxEnc c i x) = x :=
  BitVec.eq_of_toNat_eq <| by
    rw [← val, val_sboxDec c hi, val_sboxEnc c hi, tableRead_backward_forward c hi x.isLt]

theorem sboxEnc_sboxDec (c : Config) {i : Nat} (hi : i < c.N) (x : Bits c.k) :
    sboxEnc c i (sboxDec c i x) = x :=
  BitVec.eq_of_toNat_eq <| by
    rw [← val, val_sboxEnc c hi, val_sboxDec c hi, tableRead_forward_backward c hi x.isLt]

theorem subD_subE (c : Config) (v : Bits c.L) : subD c (subE c v) = v :=
  eq_of_chunkVal_eq c.chunk_mul fun i hi => by
    rw [chunkVal_subD c _ hi, chunkVal_subE c v hi,
      tableRead_backward_forward c hi (chunkVal_lt c.k v i)]

theorem subE_subD (c : Config) (v : Bits c.L) : subE c (subD c v) = v :=
  eq_of_chunkVal_eq c.chunk_mul fun i hi => by
    rw [chunkVal_subE c _ hi, chunkVal_subD c v hi,
      tableRead_forward_backward c hi (chunkVal_lt c.k v i)]

/-- Settles O37: position by position, and chunk by chunk for the layer. -/
theorem substitutionInversion : Obligations.SubstitutionInversion :=
  ⟨fun c _ x hi => ⟨sboxDec_sboxEnc c hi x, sboxEnc_sboxDec c hi x⟩,
    fun c v => ⟨subD_subE c v, subE_subD c v⟩⟩

/-! ### The layer operations (R106) -/

/-- While RUN and inside the sequence, with DIR = 0, a layer step writes ST and RC, LP goes up by one, and
PHASE ends at `NL` (R106). -/
theorem layerStep_of_enc {s : State} (hp : s.phase = .run) (hd : s.dir = .enc)
    (hlp : val s.lp < s.cfg.nl) (v : Bits s.cfg.L) (rc : Bits s.cfg.rcw) :
    layerStep s v rc = .next { s with
      st := v
      rc := rc
      lp := bitsOf s.cfg.lpw (val s.lp + 1)
      phase := if val s.lp + 1 = s.cfg.nl then .done else .run } := by
  rw [layerStep_of_run hp (layerIndex_enc hd hlp)]
  simp only [advance, nextPointer, endPointer, hd, hp]

/-- While RUN and inside the sequence, with DIR = 1, a layer step writes ST and RC, LP goes down by one, and
PHASE ends at 0 (R106). -/
theorem layerStep_of_dec {s : State} (hp : s.phase = .run) (hd : s.dir = .dec) (h1 : 1 ≤ val s.lp)
    (h2 : val s.lp ≤ s.cfg.nl) (v : Bits s.cfg.L) (rc : Bits s.cfg.rcw) :
    layerStep s v rc = .next { s with
      st := v
      rc := rc
      lp := bitsOf s.cfg.lpw (val s.lp - 1)
      phase := if val s.lp - 1 = 0 then .done else .run } := by
  rw [layerStep_of_run hp (layerIndex_dec hd h1 h2)]
  simp only [advance, nextPointer, endPointer, hd, hp]

/-- Settles O8: one layer step with `SubE` of ST. -/
theorem subEncrypts : Obligations.SubEncrypts :=
  ⟨rfl, fun s hp hd hlp => ⟨subE s.cfg s.st, _, layerStep_of_enc hp hd hlp _ s.rc,
    s.cfg.val_pointer hlp, fun _ => chunkVal_subE s.cfg s.st⟩⟩

/-- Settles O9: one layer step with `SubD` of ST. -/
theorem subDecrypts : Obligations.SubDecrypts :=
  ⟨rfl, fun s hp hd h1 h2 => ⟨subD s.cfg s.st, _, layerStep_of_dec hp hd h1 h2 _ s.rc,
    s.cfg.val_pointer (Nat.le_trans (Nat.sub_le _ 1) h2), fun _ => chunkVal_subD s.cfg s.st⟩⟩

/-- Settles O15: the pointer update over a new ST and RC writes LP and PHASE. -/
theorem layerOperationFrame : Obligations.LayerOperationFrame := by
  intro d k s t h
  obtain ⟨-, -, v, rc, rfl, hrc, -⟩ := exec_layer_next h
  exact ⟨v, rc, _, _, rfl, hrc⟩

end Sys2Proof.Machine

/-! The statements about the permutation: the map of a configuration, PERM.E and PERM.D. -/

namespace Sys2Proof.Machine

/-! ### The map of a configuration (R79, R80) -/

/-- `PINV` undoes `P` (R80). -/
theorem source_dest (c : Config) {s : Nat} (hs : s < c.L) : c.source (c.dest s) = s := by
  obtain ⟨hlen, -, hnd⟩ := c.map
  have hs' : s < c.perm.length := hlen ▸ hs
  rw [Params.source, Params.dest, List.getD_eq_getElem _ _ hs', hnd.idxOf_getElem s hs']

/-- `P` undoes `PINV` (R80). -/
theorem dest_source (c : Config) {d : Nat} (hd : d < c.L) : c.dest (c.source d) = d := by
  obtain ⟨hlen, hlt, hnd⟩ := c.map
  have hidx : c.perm.idxOf d < c.perm.length :=
    List.idxOf_lt_length_of_mem (mem_of_nodup_lt hlen hlt hnd hd)
  rw [Params.source, Params.dest, List.getD_eq_getElem _ _ hidx, List.getElem_idxOf]

/-- Settles O36. -/
theorem inverseMap : Obligations.InverseMap := fun c _ hb => ⟨source_dest c hb, dest_source c hb⟩

/-! ### The permutation layer (R82, R83) -/

/-- Bit `d` after `PermE` is the bit at `PINV[d]` (R82). -/
theorem getLsbD_permE (c : Config) (v : Bits c.L) {d : Nat} (hd : d < c.L) :
    (permE c v).getLsbD d = v.getLsbD (c.source d) := by
  rw [permE, getLsbD_ofBits, decide_eq_true hd, Bool.true_and]

/-- Bit `s` after `PermD` is the bit at `P[s]` (R83). -/
theorem getLsbD_permD (c : Config) (v : Bits c.L) {s : Nat} (hs : s < c.L) :
    (permD c v).getLsbD s = v.getLsbD (c.dest s) := by
  rw [permD, getLsbD_ofBits, decide_eq_true hs, Bool.true_and]

/-- `PermE` moves the bit at `s` to `P[s]` (R82). -/
theorem getLsbD_permE_dest (c : Config) (v : Bits c.L) {s : Nat} (hs : s < c.L) :
    (permE c v).getLsbD (c.dest s) = v.getLsbD s := by
  rw [getLsbD_permE c v (dest_lt c hs), source_dest c hs]

/-- `PermD` moves the bit at `d` to `PINV[d]` (R83). -/
theorem getLsbD_permD_source (c : Config) (v : Bits c.L) {d : Nat} (hd : d < c.L) :
    (permD c v).getLsbD (c.source d) = v.getLsbD d := by
  rw [getLsbD_permD c v (source_lt c hd), dest_source c hd]

theorem permD_permE (c : Config) (v : Bits c.L) : permD c (permE c v) = v :=
  BitVec.eq_of_getLsbD_eq fun i hi => by rw [getLsbD_permD c _ hi, getLsbD_permE_dest c v hi]

theorem permE_permD (c : Config) (v : Bits c.L) : permE c (permD c v) = v :=
  BitVec.eq_of_getLsbD_eq fun i hi => by rw [getLsbD_permE c _ hi, getLsbD_permD_source c v hi]

/-- Settles O38: bit by bit, by the map and its inverse. -/
theorem permutationInversion : Obligations.PermutationInversion :=
  fun c v => ⟨permD_permE c v, permE_permD c v⟩

theorem permE_xor (c : Config) (a b : Bits c.L) : permE c (a ^^^ b) = permE c a ^^^ permE c b :=
  BitVec.eq_of_getLsbD_eq fun i hi => by
    rw [BitVec.getLsbD_xor, getLsbD_permE c _ hi, getLsbD_permE c a hi, getLsbD_permE c b hi,
      BitVec.getLsbD_xor]

theorem permD_xor (c : Config) (a b : Bits c.L) : permD c (a ^^^ b) = permD c a ^^^ permD c b :=
  BitVec.eq_of_getLsbD_eq fun i hi => by
    rw [BitVec.getLsbD_xor, getLsbD_permD c _ hi, getLsbD_permD c a hi, getLsbD_permD c b hi,
      BitVec.getLsbD_xor]

/-- Settles O39: both sides read the same bit of each operand. -/
theorem permutationXor : Obligations.PermutationXor :=
  fun c a b => ⟨permE_xor c a b, permD_xor c a b⟩

/-! ### PERM.E and PERM.D (R82, R83) -/

/-- Settles O10: one layer step with `PermE` of ST. -/
theorem permEncrypts : Obligations.PermEncrypts :=
  ⟨rfl, fun s hp hd hlp => ⟨permE s.cfg s.st, _, layerStep_of_enc hp hd hlp _ s.rc,
    s.cfg.val_pointer hlp, fun _ => getLsbD_permE_dest s.cfg s.st⟩⟩

/-- Settles O11: one layer step with `PermD` of ST. -/
theorem permDecrypts : Obligations.PermDecrypts :=
  ⟨rfl, fun s hp hd h1 h2 => ⟨permD s.cfg s.st, _, layerStep_of_dec hp hd h1 h2 _ s.rc,
    s.cfg.val_pointer (Nat.le_trans (Nat.sub_le _ 1) h2), fun _ => getLsbD_permD s.cfg s.st⟩⟩

end Sys2Proof.Machine

/-! The statements about the key whitening: its involution, WHT.E and WHT.D, and the bits of the master key that a
result depends on. -/

namespace Sys2Proof.Machine

/-! ### The whitening layer (R90, R92, R93) -/

/-- Whitening is its own inverse (R94). -/
theorem wht_wht (c : Config) (v : Bits c.L) (key : Bits c.ksize) : wht c (wht c v key) key = v := by
  rw [wht, wht, BitVec.xor_assoc, BitVec.xor_self, BitVec.xor_zero]

/-- Settles O40: the key cancels under xor. -/
theorem whiteningInvolution : Obligations.WhiteningInvolution := wht_wht

/-- The bits of ST whitened with the round key of RC (R88, R90). -/
theorem getLsbD_wht_roundKey {s : State} (h1 : 1 ≤ val s.rc) (h2 : val s.rc ≤ s.cfg.nw) {b : Nat}
    (hb : b < s.cfg.L) :
    (wht s.cfg s.st (keySchedule s.cfg s.mk (val s.rc))).getLsbD b =
      (s.st.getLsbD b ^^ s.mk.getLsbD (s.cfg.kstride * (val s.rc - 1) + b)) := by
  have hkey : b < s.cfg.ksize := s.cfg.ksize_eq.symm ▸ hb
  rw [getLsbD_wht, getLsbD_keySchedule_mk h1 h2, decide_eq_true hb, decide_eq_true hkey,
    Bool.true_and, Bool.true_and]

/-- In the rounds `1 .. NW`, WHT.E is one layer step with the round key of the old RC (R92). -/
theorem exec_whtE_of_range {s : State} (h1 : 1 ≤ val s.rc) (h2 : val s.rc ≤ s.cfg.nw) :
    exec .whtE s = layerStep s (wht s.cfg s.st (keySchedule s.cfg s.mk (val s.rc)))
      (bitsOf s.cfg.rcw (val s.rc + 1)) := by
  simp only [exec, execWhtE, roundKey_of_range h1 h2]

/-- In the rounds `1 .. NW`, WHT.D is one layer step with the round key of the old RC (R93). -/
theorem exec_whtD_of_range {s : State} (h1 : 1 ≤ val s.rc) (h2 : val s.rc ≤ s.cfg.nw) :
    exec .whtD s = layerStep s (wht s.cfg s.st (keySchedule s.cfg s.mk (val s.rc)))
      (bitsOf s.cfg.rcw (val s.rc - 1)) := by
  simp only [exec, execWhtD, roundKey_of_range h1 h2]

/-- Settles O12: one layer step; `NW + 1` fits RC, so the increment does not wrap. -/
theorem whtEncrypts : Obligations.WhtEncrypts :=
  ⟨rfl, fun s hp hd hlp h1 h2 => ⟨_, _, _,
    (exec_whtE_of_range h1 h2).trans (layerStep_of_enc hp hd hlp _ _),
    s.cfg.val_pointer hlp, s.cfg.val_round (Nat.succ_le_succ h2),
    fun _ => getLsbD_wht_roundKey h1 h2⟩⟩

/-- Settles O13: one layer step; RC is at least 1, so the decrement does not wrap. -/
theorem whtDecrypts : Obligations.WhtDecrypts :=
  ⟨rfl, fun s hp hd hlp hnl h1 h2 => ⟨_, _, _,
    (exec_whtD_of_range h1 h2).trans (layerStep_of_dec hp hd hlp hnl _ _),
    s.cfg.val_pointer (Nat.le_trans (Nat.sub_le _ 1) hnl), s.cfg.val_round (by omega),
    fun _ => getLsbD_wht_roundKey h1 h2⟩⟩

/-! ### The extent of the key (R96) -/

/-- Two master keys give the same round key in each of the rounds `1 .. NW`. -/
def SameRoundKeys (c : Config) {w w' : Nat} (mk : Bits w) (mk' : Bits w') : Prop :=
  ∀ r, 1 ≤ r → r ≤ c.nw → keySchedule c mk r = keySchedule c mk' r

/-- The round keys are slices of the bits below `KEND` (R88, R96). -/
theorem sameRoundKeys_of_agree {c : Config} {w w' : Nat} {mk : Bits w} {mk' : Bits w'}
    (hw : c.kend ≤ w) (hw' : c.kend ≤ w') (h : ∀ i < c.kend, mk.getLsbD i = mk'.getLsbD i) :
    SameRoundKeys c mk mk' := by
  intro r h1 h2
  have hslice := c.slice_le_kend h2
  refine BitVec.eq_of_getLsbD_eq fun i hi => ?_
  rw [getLsbD_keySchedule c mk h1 (hslice.trans hw), getLsbD_keySchedule c mk' h1 (hslice.trans hw'),
    h _ (lt_of_lt_of_le (Nat.add_lt_add_left hi _) hslice)]

/-- `NW` counts the whitenings among the kinds (R101). -/
theorem count_wht_kinds (p : Params) : p.kinds.count .wht = p.nw := by
  rw [Params.kinds, Params.nw, Params.whtBefore, Params.nl, List.take_length, List.count,
    List.countP_filterMap]
  refine List.countP_congr fun d _ => ?_
  cases decodeKind d <;> simp

/-- The loop of `Enc` uses the round keys from `rc` up to the last whitening to come (R109, R110). -/
theorem encLayers_congr_key {c : Config} {w w' : Nat} {mk : Bits w} {mk' : Bits w'}
    (h : SameRoundKeys c mk mk') (ks : List Kind) (rc : Nat) (v : Bits c.L) (hrc : 1 ≤ rc)
    (hks : rc + ks.count .wht ≤ c.nw + 1) : encLayers c mk ks rc v = encLayers c mk' ks rc v := by
  induction ks generalizing rc v with
  | nil => rfl
  | cons k ks ih =>
    cases k with
    | sub => exact ih rc (subE c v) hrc hks
    | perm => exact ih rc (permE c v) hrc hks
    | wht =>
      rw [List.count_cons_self] at hks
      rw [encLayers, encLayers, h rc hrc (by omega)]
      exact ih (rc + 1) _ (by omega) (by omega)

/-- The loop of `Dec` uses the round keys from `rc` down to the last whitening to come (R109, R111). -/
theorem decLayers_congr_key {c : Config} {w w' : Nat} {mk : Bits w} {mk' : Bits w'}
    (h : SameRoundKeys c mk mk') (ks : List Kind) (rc : Nat) (v : Bits c.L) (hrc : rc ≤ c.nw)
    (hks : ks.count .wht ≤ rc) : decLayers c mk ks rc v = decLayers c mk' ks rc v := by
  induction ks generalizing rc v with
  | nil => rfl
  | cons k ks ih =>
    cases k with
    | sub => exact ih rc (subD c v) hrc hks
    | perm => exact ih rc (permD c v) hrc hks
    | wht =>
      rw [List.count_cons_self] at hks
      rw [decLayers, decLayers, h rc (by omega) hrc]
      exact ih (rc - 1) _ (by omega) (by omega)

/-- Settles O46: both loops stay in the rounds `1 .. NW`, whose keys lie below `KEND`. -/
theorem keyExtent : Obligations.KeyExtent := by
  intro c w w' mk mk' v hw hw' h
  have hkeys := sameRoundKeys_of_agree hw hw' h
  have hcount := count_wht_kinds c.toParams
  refine ⟨encLayers_congr_key hkeys c.kinds 1 v le_rfl (by omega),
    decLayers_congr_key hkeys c.kinds.reverse c.nw v le_rfl ?_⟩
  rw [List.count_reverse, hcount]

end Sys2Proof.Machine

/-! The round-trip law: the loop of `Dec` undoes the loop of `Enc`, layer by layer. -/

namespace Sys2Proof.Machine

/-- From the last round of `ks`, the loop of `Dec` over `ks` backwards undoes the loop of `Enc` over `ks`, and goes
on with the round before `rc` (R109, R112). -/
theorem decLayers_reverse_encLayers (c : Config) {w : Nat} (mk : Bits w) (ks rest : List Kind) (rc : Nat)
    (v : Bits c.L) :
    decLayers c mk (ks.reverse ++ rest) (rc + ks.count .wht - 1) (encLayers c mk ks rc v) =
      decLayers c mk rest (rc - 1) v := by
  induction ks generalizing rest rc v with
  | nil => rfl
  | cons k ks ih =>
    rw [List.reverse_cons, List.append_assoc, List.singleton_append]
    cases k with
    | sub =>
      rw [List.count_cons_of_ne (by decide), encLayers, ih, decLayers, subD_subE]
    | perm =>
      rw [List.count_cons_of_ne (by decide), encLayers, ih, decLayers, permD_permE]
    | wht =>
      have hround : rc + (ks.count .wht + 1) - 1 = rc + 1 + ks.count .wht - 1 := by omega
      rw [List.count_cons_self, hround, encLayers, ih, Nat.add_sub_cancel, decLayers, wht_wht]

theorem dec_enc (c : Config) {w : Nat} (mk : Bits w) (v : Bits c.L) : dec c mk (enc c mk v) = v := by
  have h := decLayers_reverse_encLayers c mk c.kinds [] 1 v
  rwa [List.append_nil, count_wht_kinds, Nat.add_sub_cancel_left] at h

/-- There are finitely many blocks, so the one-sided inverse is two-sided. -/
theorem enc_dec (c : Config) {w : Nat} (mk : Bits w) (v : Bits c.L) : enc c mk (dec c mk v) = v :=
  have hinv : Function.LeftInverse (dec c mk) (enc c mk) := dec_enc c mk
  hinv.rightInverse_of_surjective (Finite.surjective_of_injective hinv.injective) v

/-- Settles O45: each layer of `Dec` undoes its layer of `Enc`, in the same round. -/
theorem roundTrip : Obligations.RoundTrip := fun c _ mk v _ => ⟨dec_enc c mk v, enc_dec c mk v⟩

end Sys2Proof.Machine

/-! The host commands: what each START does outside RUN, in both directions at once, and the statements about
START.ENC, START.DEC and NOP. -/

namespace Sys2Proof.Machine

/-! ### The command words (R61, R102) -/

/-- The START of a direction (R60). -/
def startInstr : Dir → Instr
  | .enc => .startEnc
  | .dec => .startDec

theorem exec_startInstr (d : Dir) (s : State) :
    exec (startInstr d) s = .next (startOperation d s) := by
  cases d <;> rfl

/-- With bit 0 clear a command word is NOP (R61). -/
theorem decodeCommand_nop {v : Nat} (h0 : v.testBit 0 = false) : decodeCommand v = .nop := by
  simp [decodeCommand, h0]

/-- With bit 0 set, bit 1 of a command word is the direction of a START (R61). -/
theorem decodeCommand_start {v : Nat} (h0 : v.testBit 0 = true) :
    decodeCommand v = startInstr (if v.testBit 1 then .dec else .enc) := by
  rw [decodeCommand, if_pos h0]
  split <;> rfl

/-- Settles O19: bit 0 of an even word is clear. -/
theorem nopChangesNothing : Obligations.NopChangesNothing :=
  ⟨fun v hv => decodeCommand_nop (by simp [Nat.testBit_zero, hv]), fun _ => rfl⟩

/-- Settles O20: bit 0 tells NOP from a START, PHASE whether the START is dropped, bit 1 its direction. -/
theorem commandDispatch : Obligations.CommandDispatch := by
  intro s v rest ha
  have hstart (h0 : v.getLsbD 0 = true) :
      step s = exec (startInstr (if v.getLsbD 1 then .dec else .enc)) { s with agenda := rest } := by
    rw [step_of_write_ctrl ha, decodeCommand_start h0]
    rfl
  refine ⟨fun h0 => ?_, fun h0 hp => ?_, fun h0 _ h1 => ?_, fun h0 _ h1 => ?_⟩
  · rw [step_of_write_ctrl ha, decodeCommand_nop h0]
    rfl
  · rw [hstart h0, exec_startInstr, startOperation, if_pos hp]
  · rw [hstart h0, h1]
    rfl
  · rw [hstart h0, h1]
    rfl

/-! ### The outcomes of a START outside RUN (R103, R104, R121) -/

theorem startOperation_keyShort (d : Dir) {s : State} (hp : s.phase ≠ .run)
    (hL : val s.klen < s.cfg.L) : startOperation d s = raiseValidationError .keyShort s := by
  obtain ⟨hr, -⟩ | ⟨-, -, he⟩ | ⟨-, hs, -⟩ | ⟨-, hs, -⟩ := startOperation_cases d s
  · exact absurd hr hp
  · exact he
  · omega
  · omega

theorem startOperation_keyRange (d : Dir) {s : State} (hp : s.phase ≠ .run)
    (hL : s.cfg.L ≤ val s.klen) (hkey : val s.klen < s.cfg.kend) :
    startOperation d s = raiseValidationError .keyRange s := by
  obtain ⟨hr, -⟩ | ⟨-, hs, -⟩ | ⟨-, -, -, he⟩ | ⟨-, -, hs, -⟩ := startOperation_cases d s
  · exact absurd hr hp
  · omega
  · exact he
  · omega

/-- With a key that is long enough the START begins its operation (R103, R104). -/
theorem exec_start_accepted (d : Dir) {s : State} (hp : s.phase ≠ .run) (hL : s.cfg.L ≤ val s.klen)
    (hkey : s.cfg.kend ≤ val s.klen) : exec (startInstr d) s = .next (beginOperation d s) := by
  rw [exec_startInstr, startOperation_accepted d hp hL hkey]

/-- Settles O17: the two faults and the accepted start; 0 and 1 fit LP and RC. -/
theorem startEncMeaning : Obligations.StartEncMeaning :=
  ⟨fun v hv => (commandMap v).trans (if_pos hv), fun s hp =>
    ⟨fun hL => congrArg _ (startOperation_keyShort .enc hp hL),
      fun hL hkey => congrArg _ (startOperation_keyRange .enc hp hL hkey),
      fun hL hkey => ⟨_, _, exec_start_accepted .enc hp hL hkey,
        s.cfg.val_pointer (Nat.zero_le _), s.cfg.val_round (Nat.le_add_left 1 _)⟩⟩⟩

/-- Settles O18: the two faults and the accepted start; `NL` and `NW` fit LP and RC. -/
theorem startDecMeaning : Obligations.StartDecMeaning :=
  ⟨fun v hv => (commandMap v).trans ((if_neg (by omega)).trans (if_pos hv)), fun s hp =>
    ⟨fun hL => congrArg _ (startOperation_keyShort .dec hp hL),
      fun hL hkey => congrArg _ (startOperation_keyRange .dec hp hL hkey),
      fun hL hkey => ⟨_, _, exec_start_accepted .dec hp hL hkey,
        s.cfg.val_pointer le_rfl, s.cfg.val_round (Nat.le_succ _)⟩⟩⟩

/-- From `s` to `t` only what a command may write has changed: DIR, LP, RC, ECODE and PHASE, and where `t` is in
ERR only the last two (R122). -/
def CommandWrites (s t : State) : Prop :=
  (∃ (d : Dir) (lp : Bits s.cfg.lpw) (rc : Bits s.cfg.rcw) (e : ECode) (p : Phase),
    t = { s with dir := d, lp := lp, rc := rc, ecode := e, phase := p }) ∧
  (t.phase = .err → ∃ e : ECode, t = { s with ecode := e, phase := .err })

theorem commandWrites_refl (s : State) : CommandWrites s s :=
  ⟨⟨_, _, _, _, _, rfl⟩, fun herr => ⟨s.ecode, by rw [← herr]⟩⟩

theorem commandWrites_raiseValidationError (code : ECode) (s : State) :
    CommandWrites s (raiseValidationError code s) :=
  ⟨⟨_, _, _, _, _, rfl⟩, fun _ => ⟨code, rfl⟩⟩

theorem commandWrites_startOperation (d : Dir) (s : State) :
    CommandWrites s (startOperation d s) := by
  obtain ⟨-, he⟩ | ⟨-, -, he⟩ | ⟨-, -, -, he⟩ | ⟨-, -, -, he⟩ := startOperation_cases d s <;> rw [he]
  · exact commandWrites_refl s
  · exact commandWrites_raiseValidationError .keyShort s
  · exact commandWrites_raiseValidationError .keyRange s
  · exact ⟨⟨_, _, _, _, _, rfl⟩, nofun⟩

/-- Settles O21: command by command, and a START by its outcome. -/
theorem commandFrame : Obligations.CommandFrame := by
  rintro i s t (rfl | rfl | rfl) h <;> obtain rfl := Host.Outcome.next.inj h
  · exact commandWrites_startOperation .enc s
  · exact commandWrites_startOperation .dec s
  · exact commandWrites_refl s

end Sys2Proof.Machine

/-! Operations left to the engine: an accepted START, its `NL` steps and its end. -/

namespace Sys2Proof.Machine

theorem layersLeft_le {s : State} (hlp : val s.lp ≤ s.cfg.nl) : layersLeft s ≤ s.cfg.nl := by
  cases hd : s.dir with
  | enc => simp [layersLeft, hd]
  | dec => simpa [layersLeft, hd] using hlp

/-- While RUN with nothing planned, a step is the engine's: it executes one of the layers still to come, keeps the
outcome, leaves in RC the round at LP, and ends the operation when it leaves no layer (R106, R33 (d), (e)). -/
theorem step_engine_alone {s : State} (h : Inv s) (hp : s.phase = .run) (ha : s.agenda = []) :
    ∃ t, step s = .next t ∧ (∃ v rc lp p, t = { s with st := v, rc := rc, lp := lp, phase := p }) ∧
      layersLeft s = layersLeft t + 1 ∧ t.phase = (if layersLeft t = 0 then .done else .run) ∧
      val (outcome t) = val (outcome s) ∧ val t.rc = roundAt s.cfg (val t.lp) s.dir := by
  obtain ⟨t, ht⟩ := engineTurn_completes h
  obtain ⟨hframe, hleft, hphase, hout⟩ := engineTurn_keeps_outcome hp ht
  have hround : val t.rc = roundAt s.cfg (val t.lp) s.dir := by
    obtain ⟨hne, -⟩ | ⟨-, i, kind, k, hi, hk, hd, hx⟩ := engineTurn_next ht
    · exact absurd hp hne
    · rw [h.rc_after_layer hp hi hk hd hx, val_lp_of_exec_layer hx]
  exact ⟨t, (step_of_engineMoves (.inl ⟨ha, rfl⟩)).trans ht, hframe, hleft, hphase, hout, hround⟩

/-- The engine left to itself is in RUN as long as a layer is still to come (R27). -/
theorem stepsTo_run {s : State} (h : Inv s) (hp : s.phase = .run) (ha : s.agenda = []) {j : Nat}
    (hj : j < layersLeft s) : ∃ t, stepsTo j s t ∧ t.phase = .run := by
  induction j generalizing s with
  | zero => exact ⟨s, rfl, hp⟩
  | succ j ih =>
    obtain ⟨t, hstep, ⟨v, rc, lp, p, ht⟩, hleft, hphase, -⟩ := step_engine_alone h hp ha
    have hrun : t.phase = .run := hphase.trans (if_neg (by omega))
    obtain ⟨u, hsteps, hu⟩ := ih (inv_step h hstep) hrun (ht ▸ ha) (by omega)
    exact ⟨u, ⟨t, hstep, hsteps⟩, hu⟩

/-- The engine left to itself executes the layers still to come and ends in DONE with the outcome in ST, LP at its
end and RC the round there, and nothing else changed (R106, R114). -/
theorem stepsTo_done {s : State} (h : Inv s) (hp : s.phase = .run) (ha : s.agenda = []) :
    ∃ rc lp, stepsTo (layersLeft s) s
        { s with st := outcome s, rc := rc, lp := lp, phase := .done } ∧
      val lp = endPointer s ∧ val rc = roundAt s.cfg (endPointer s) s.dir := by
  obtain ⟨t, hstep, ⟨v, rc, lp, p, ht⟩, hleft, hphase, hout, hround⟩ := step_engine_alone h hp ha
  have hinv := inv_step h hstep
  by_cases hnone : layersLeft t = 0
  · have hlp := (layersLeft_eq_zero_iff hinv.lpRange).1 hnone
    have hst := (congrArg val (outcome_of_none_left hnone)).symm.trans hout
    rw [hlp] at hround
    rw [if_pos hnone] at hphase
    rw [hnone] at hleft
    subst ht
    obtain rfl : p = .done := hphase
    obtain rfl : v = outcome s := BitVec.eq_of_toNat_eq hst
    exact ⟨rc, lp, hleft ▸ ⟨_, hstep, rfl⟩, hlp, hround⟩
  · rw [if_neg hnone] at hphase
    have hlt : layersLeft t < layersLeft s := by omega
    subst ht
    obtain ⟨rc', lp', hsteps, hend⟩ := stepsTo_done hinv hphase ha
    rw [BitVec.eq_of_toNat_eq (y := outcome s) hout] at hsteps
    exact ⟨rc', lp', hleft ▸ ⟨_, hstep, hsteps⟩, hend⟩
termination_by layersLeft s

/-- Settles O49: between 1 and `NL` layers are still to come, and each takes one step. -/
theorem operationTerminates : Obligations.OperationTerminates := by
  intro s h hp ha
  obtain ⟨rc, lp, hsteps, -⟩ := stepsTo_done h hp ha
  exact ⟨layersLeft s, _, Nat.one_le_iff_ne_zero.2 (h.layersLeft_ne_zero hp), layersLeft_le h.lpRange,
    hsteps, .inl rfl, h.ecode_of_run hp⟩

/-- An accepted START left to the engine: RUN for `NL` steps, then DONE with the operation's result in ST
(R107, R114). -/
theorem beginOperation_run (d : Dir) {s : State} (ha : s.agenda = [])
    (hkey : s.cfg.kend ≤ val s.klen) :
    (∀ j < s.cfg.nl, ∃ t, stepsTo j (beginOperation d s) t ∧ t.phase = .run) ∧
    ∃ (lp : Bits s.cfg.lpw) (rc : Bits s.cfg.rcw),
      stepsTo s.cfg.nl (beginOperation d s) { s with
        st := cipher d s.cfg s.mk s.st, lp := lp, rc := rc, dir := d, phase := .done,
        ecode := .none } ∧
      val lp = endPointer (beginOperation d s) ∧ val rc = roundAt s.cfg (val lp) d := by
  have hinv := inv_beginOperation d hkey
  have hleft := layersLeft_beginOperation d s
  refine ⟨fun j hj => stepsTo_run hinv rfl ha (hleft.symm ▸ hj), ?_⟩
  obtain ⟨rc, lp, hsteps, hlp, hrc⟩ := stepsTo_done hinv rfl ha
  rw [hleft, outcome_beginOperation] at hsteps
  exact ⟨lp, rc, hsteps, hlp, hrc.trans (congrArg (roundAt s.cfg · d) hlp.symm)⟩

/-- Settles O47: at `NL` the round is one more than all whitenings. -/
theorem encryptionRun : Obligations.EncryptionRun := by
  intro s ha hp hL hkey
  obtain ⟨hrun, lp, rc, hsteps, hlp, hrc⟩ := beginOperation_run .enc ha hkey
  refine ⟨_, exec_start_accepted .enc hp hL hkey, hrun, lp, rc, hsteps, hlp, ?_⟩
  rw [hrc, hlp]
  exact Nat.add_comm 1 s.cfg.nw

/-- Settles O48: at 0 no whitening is left to undo. -/
theorem decryptionRun : Obligations.DecryptionRun := by
  intro s ha hp hL hkey
  obtain ⟨hrun, lp, rc, hsteps, hlp, hrc⟩ := beginOperation_run .dec ha hkey
  refine ⟨_, exec_start_accepted .dec hp hL hkey, hrun, lp, rc, hsteps, hlp, ?_⟩
  rw [hrc, hlp]
  exact whtBefore_zero s.cfg.toParams

end Sys2Proof.Machine

/-! The standard layer sequence: its length, its whitenings and its kinds. -/

namespace Sys2Proof.Machine

/-- One round more is one `ROUND` in front (R99). -/
theorem stdLayers_succ {r : Nat} (hr : 1 ≤ r) : stdLayers (r + 1) = roundLayers ++ stdLayers r := by
  obtain ⟨n, rfl⟩ := Nat.exists_eq_add_of_le' hr
  rw [stdLayers, stdLayers, List.replicate_succ, List.flatten_cons, List.append_assoc]

/-- `STD(R)` has `3R` layers (R99). -/
theorem stdLayers_length {r : Nat} (hr : 1 ≤ r) : (stdLayers r).length = 3 * r := by
  induction r, hr using Nat.le_induction with
  | base => rfl
  | succ r hr ih =>
    rw [stdLayers_succ hr, List.length_append, ih, Nat.mul_succ, Nat.add_comm]
    rfl

/-- `STD(R)` has `R + 1` whitenings (R99, R101). -/
theorem stdLayers_count_wht {r : Nat} (hr : 1 ≤ r) :
    (stdLayers r).countP (fun d => decodeKind d == some .wht) = r + 1 := by
  induction r, hr using Nat.le_induction with
  | base => rfl
  | succ r hr ih =>
    rw [stdLayers_succ hr, List.countP_append, ih, Nat.add_comm]
    rfl

/-- The kind of layer `i` of `STD(R)`: `WHT; SUB; PERM` over and over, with a `WHT` at the end (R99). -/
theorem stdLayers_kind {r : Nat} (hr : 1 ≤ r) {i : Nat} (hi : i < 3 * r) :
    (stdLayers r)[i]?.bind decodeKind =
      some (if i % 3 = 0 ∨ i = 3 * r - 1 then .wht else if i % 3 = 1 then .sub else .perm) := by
  induction r, hr using Nat.le_induction generalizing i with
  | base =>
    revert i
    decide
  | succ r hr ih =>
    rw [stdLayers_succ hr]
    by_cases hround : i < 3
    · have hlast : i ≠ 3 * (r + 1) - 1 := by omega
      rw [List.getElem?_append_left hround]
      simp only [hlast, or_false]
      clear hi hlast
      revert i
      decide
    · obtain ⟨j, rfl⟩ := Nat.exists_eq_add_of_le' (Nat.not_lt.1 hround)
      have hlast : j + 3 = 3 * (r + 1) - 1 ↔ j = 3 * r - 1 := by omega
      have hshift : (roundLayers ++ stdLayers r)[j + 3]? = (stdLayers r)[j]? :=
        List.getElem?_append_right (Nat.le_add_left 3 j)
      rw [hshift, ih (by omega), Nat.add_mod_right]
      simp only [hlast]

/-- Settles O43: each part by induction on the rounds, one `ROUND` in front at a time. -/
theorem standardSequence : Obligations.StandardSequence := fun _ hr =>
  ⟨stdLayers_length hr, stdLayers_count_wht hr, fun _ => stdLayers_kind hr⟩

end Sys2Proof.Machine

/-! The library call: its four writes, and what they end in with a key long enough and with a key too short. -/

namespace Sys2Proof.Machine

theorem stepsTo_trans {m n : Nat} {s t u : State} (h : stepsTo m s t) (h' : stepsTo n t u) :
    stepsTo (m + n) s u := by
  induction m generalizing s with
  | zero =>
    obtain rfl := h
    rwa [Nat.zero_add]
  | succ m ih =>
    obtain ⟨r, hstep, hr⟩ := h
    rw [Nat.succ_add]
    exact ⟨r, hstep, ih hr⟩

/-- A value that fits a bus is what the bus carries (R16). -/
theorem val_bitsOf {n x : Nat} (h : x < 2 ^ n) : val (bitsOf n x) = x :=
  (BitVec.toNat_ofNat _ _).trans (Nat.mod_eq_of_lt h)

/-- `s` with the operands of a library call stored and `rest` to come (R116). -/
def withOperands (s : State) (block key keyLength : Nat) (rest : List (Move s.cfg.busw)) : State :=
  { s with
    st := bitsOf s.cfg.L block, mk := bitsOf s.cfg.mkw key, klen := bitsOf s.cfg.klw keyLength,
    agenda := rest }

theorem step_of_write_st {s : State} {v : Bits s.cfg.busw} {rest : List (Move s.cfg.busw)}
    (ha : s.agenda = .write 2 v :: rest) (hp : s.phase ≠ .run) :
    step s = .next { s with agenda := rest, st := bitsOf s.cfg.L (val v) } :=
  step_of_write_register ha (by decide) (storeRegister_st (s := { s with agenda := rest }) hp v)

theorem step_of_write_mk {s : State} {v : Bits s.cfg.busw} {rest : List (Move s.cfg.busw)}
    (ha : s.agenda = .write 3 v :: rest) (hp : s.phase ≠ .run) :
    step s = .next { s with agenda := rest, mk := bitsOf s.cfg.mkw (val v) } :=
  step_of_write_register ha (by decide) (storeRegister_mk (s := { s with agenda := rest }) hp v)

theorem step_of_write_klen {s : State} {v : Bits s.cfg.busw} {rest : List (Move s.cfg.busw)}
    (ha : s.agenda = .write 4 v :: rest) (hp : s.phase ≠ .run) :
    step s = .next { s with agenda := rest, klen := bitsOf s.cfg.klw (val v) } :=
  step_of_write_register ha (by decide) (storeRegister_klen (s := { s with agenda := rest }) hp v)

/-- A planned write to CTRL of the command word of a START is that START (R61, R102). -/
theorem step_of_write_start {s : State} (d : Dir) {rest : List (Move s.cfg.busw)}
    (ha : s.agenda =
      .write 0 (bitsOf s.cfg.busw (match d with | .enc => 0x1 | .dec => 0x3)) :: rest) :
    step s = .next (startOperation d { s with agenda := rest }) := by
  have hfit (x : Nat) (hx : x < 2 ^ 8) : val (bitsOf s.cfg.busw x) = x :=
    val_bitsOf (hx.trans_le (Nat.pow_le_pow_right (by decide) (registers_fit_bus s.cfg).1))
  rw [step_of_write_ctrl ha, hfit _ (by cases d <;> decide)]
  cases d <;> rfl

/-- The four writes of a library call outside RUN: the operands are stored, then the START acts (R43, R116). -/
theorem stepsTo_libraryCall {s : State} (d : Dir) {block key keyLength : Nat}
    {rest : List (Move s.cfg.busw)} (hp : s.phase ≠ .run) (hblock : block < 2 ^ s.cfg.L)
    (hkey : key < 2 ^ s.cfg.mkw) (hlen : keyLength < 2 ^ s.cfg.busw)
    (ha : s.agenda = libraryCall s.cfg.busw d block key keyLength ++ rest) :
    stepsTo 4 s (startOperation d (withOperands s block key keyLength rest)) := by
  obtain ⟨-, hL, hmkw⟩ := registers_fit_bus s.cfg
  have hblock' := val_bitsOf (hblock.trans_le (Nat.pow_le_pow_right (by decide) hL))
  have hkey' := val_bitsOf (hkey.trans_le (Nat.pow_le_pow_right (by decide) hmkw))
  refine ⟨_, step_of_write_mk ha hp, _, step_of_write_klen rfl hp, _, step_of_write_st rfl hp,
    _, step_of_write_start d rfl, ?_⟩
  simp only [hblock', hkey', val_bitsOf hlen]
  rfl

/-- Settles O52: the operands are stored, and the START ends in its fault, which leaves them (R122). -/
theorem libraryCallFails : Obligations.LibraryCallFails := by
  intro s d block key keyLength hp hblock hkey hshort hlen hbus ha
  have hsteps := stepsTo_libraryCall d hp hblock hkey hbus (ha.trans (List.append_nil _).symm)
  have hklen : val (withOperands s block key keyLength []).klen = keyLength := val_bitsOf hlen
  have hp : (withOperands s block key keyLength []).phase ≠ .run := hp
  by_cases hL : keyLength < s.cfg.L
  · rw [startOperation_keyShort d hp (hklen.trans_lt hL)] at hsteps
    exact ⟨_, hsteps, rfl, val_bitsOf hblock, val_bitsOf hkey, rfl, (if_pos hL).symm⟩
  · rw [startOperation_keyRange d hp ((Nat.not_lt.1 hL).trans_eq hklen.symm) (hklen.trans_lt hshort)]
      at hsteps
    exact ⟨_, hsteps, rfl, val_bitsOf hblock, val_bitsOf hkey, rfl, (if_neg hL).symm⟩

/-- An accepted START with `NL` engine turns planned runs to DONE with the operation's result in ST, and leaves
the rest of the agenda (R114). -/
theorem beginOperation_planned_run (d : Dir) {s : State} {rest : List (Move s.cfg.busw)}
    (ha : s.agenda = List.replicate s.cfg.nl .engine ++ rest) (hkey : s.cfg.kend ≤ val s.klen) :
    ∃ rc lp r n, stepsTo s.cfg.nl (beginOperation d s) { s with
      agenda := rest, st := cipher d s.cfg s.mk s.st, rc := rc, lp := lp, dir := d, phase := .done,
      ecode := .none, rdata := r, draws := n } := by
  obtain ⟨k, hk⟩ := Nat.exists_eq_add_of_le' s.cfg.nl_pos
  have hagenda : s.agenda = List.replicate k .engine ++ .engine :: rest := by
    rw [ha, hk, List.replicate_succ', List.append_assoc, List.singleton_append]
  obtain ⟨rc, lp, r, n, hsteps⟩ :=
    stepsTo_outcome (ms := List.replicate k .engine) (inv_beginOperation d hkey) rfl hagenda
      (fun h => absurd (List.eq_of_mem_replicate h) nofun)
      (by rw [List.count_replicate_self, layersLeft_beginOperation, hk])
  rw [List.length_replicate, ← hk, outcome_beginOperation] at hsteps
  exact ⟨rc, lp, r, n, hsteps⟩

/-- STATUS in DONE has 2 in its bits 1:0 (R27, R29). -/
theorem val_statusWord_mod_four_of_done {s : State} (hp : s.phase = .done) :
    val (statusWord s) % 4 = 2 := by
  have hdone : val (phaseBits s.phase) = 2 := by
    rw [hp]
    rfl
  rw [val_statusWord]
  omega

/-- After steps that end in DONE, a read of STATUS returns DONE and then a read of ST its value (R29, R42). -/
theorem stepsTo_reads_of_done {n : Nat} {r s : State} {rest : List (Move s.cfg.busw)} (h : stepsTo n r s)
    (ha : s.agenda = .read 1 :: .read 2 :: rest) (hp : s.phase = .done) :
    ∃ t u, stepsTo (n + 1) r t ∧ val t.rdata % 4 = 2 ∧ step t = .next u ∧
      val u.rdata = val s.st := by
  have hne : s.phase ≠ .run := by
    rw [hp]
    decide
  refine ⟨_, _, stepsTo_trans h ⟨_, step_of_read ha, rfl⟩, ?_, step_of_read rfl, val_readValue_st hne⟩
  exact (congrArg (· % 4) (val_readValue_status _)).trans (val_statusWord_mod_four_of_done hp)

/-- Settles O51: the operands are stored, the accepted START runs to DONE, and the two reads return STATUS and
the result. -/
theorem libraryCallReturns : Obligations.LibraryCallReturns := by
  intro s d block key keyLength hp hblock hkey hkend hL hlen hbus ha
  rw [List.append_assoc] at ha
  have hklen : val (bitsOf s.cfg.klw keyLength) = keyLength := val_bitsOf hlen
  rw [← hklen] at hkend hL
  have hstart := stepsTo_libraryCall d hp hblock hkey hbus ha
  rw [startOperation_accepted (s := withOperands s block key keyLength _) d hp hL hkend] at hstart
  obtain ⟨rc, lp, r, n, hrun⟩ :=
    beginOperation_planned_run d (rest := [.read 1, .read 2])
      (s := withOperands s block key keyLength (.replicate s.cfg.nl .engine ++ [.read 1, .read 2])) rfl hkend
  obtain ⟨t, u, hsteps, hdone, hread, hst⟩ :=
    stepsTo_reads_of_done (stepsTo_trans hstart hrun) rfl rfl
  refine ⟨t, u, hsteps, hdone, hread, hst.trans ?_⟩
  cases d <;> rfl

end Sys2Proof.Machine

/-! Construction: what it answers, case by case, and that the ten checks decide which. -/

namespace Sys2Proof

theorem Params.wellFormed_of_passes {p : Params} (h : ∀ x, p.passes x = true) : p.WellFormed = true :=
  List.all_eq_true.2 fun x _ => h x

theorem Params.passes_of_firstCause {p : Params} {x : CfgCause} (h : p.firstCause = some x) :
    p.passes x = false :=
  Bool.not_eq_eq_eq_not.1 (List.find?_some (p := fun c => !p.passes c) h)

/-- With no cause found, no check fails. -/
theorem Params.wellFormed_of_firstCause_eq_none {p : Params} (h : p.firstCause = none) :
    p.WellFormed = true :=
  List.all_eq_true.2 fun x hx => by simpa using List.find?_eq_none.1 h x hx

theorem construct_eq_ok_iff {p : Params} {c : Config} : construct p = .ok c ↔ c.toParams = p := by
  constructor
  · intro h
    unfold construct at h
    split at h
    · cases h
      rfl
    · cases h
  · rintro rfl
    exact dif_pos c.wf

/-- A refusal names the first cause found: the default in `construct` is never taken. -/
theorem firstCause_of_construct_eq_error {p : Params} {x : CfgCause} (h : construct p = .error x) :
    p.firstCause = some x := by
  unfold construct at h
  split at h
  · cases h
  next hwf =>
    obtain ⟨y, hy⟩ := Option.ne_none_iff_exists'.1 (mt Params.wellFormed_of_firstCause_eq_none hwf)
    rw [hy] at h
    cases h
    exact hy

/-- Settles O44: `construct` answers `p` with the proof of its checks, or the first cause found. -/
theorem constructionChecks : Obligations.ConstructionChecks := by
  refine fun p => ⟨⟨?built_passes, ?passing_builds⟩, fun _ => construct_eq_ok_iff.1,
    fun _ h => Params.passes_of_firstCause (firstCause_of_construct_eq_error h)⟩
  case built_passes =>
    rintro ⟨c, h⟩
    obtain rfl := construct_eq_ok_iff.1 h
    exact c.passes_all
  case passing_builds =>
    exact fun h => ⟨⟨p, Params.wellFormed_of_passes h⟩, construct_eq_ok_iff.2 rfl⟩

end Sys2Proof

/-! Chained operations, and the reset move. -/

namespace Sys2Proof.Machine

/-- A planned START outside RUN with a key that is long enough, and `NL` engine turns after it, run to DONE with
the operation's result in ST, and leave the rest of the agenda (R102, R114). -/
theorem write_start_planned_run (d : Dir) {s : State} {rest : List (Move s.cfg.busw)}
    (hp : s.phase ≠ .run) (hL : s.cfg.L ≤ val s.klen) (hkey : s.cfg.kend ≤ val s.klen)
    (ha : s.agenda = .write 0 (bitsOf s.cfg.busw (match d with | .enc => 0x1 | .dec => 0x3)) ::
      (List.replicate s.cfg.nl .engine ++ rest)) :
    ∃ rc lp r n, stepsTo (s.cfg.nl + 1) s { s with
      agenda := rest, st := cipher d s.cfg s.mk s.st, rc := rc, lp := lp, dir := d, phase := .done,
      ecode := .none, rdata := r, draws := n } := by
  obtain ⟨rc, lp, r, n, hrun⟩ := beginOperation_planned_run d (rest := rest)
    (s := { s with agenda := .replicate s.cfg.nl .engine ++ rest }) rfl hkey
  have hstart := startOperation_accepted d (s := { s with agenda := .replicate s.cfg.nl .engine ++ rest })
    hp hL hkey
  exact ⟨rc, lp, r, n, _, (step_of_write_start d ha).trans (congrArg _ hstart), hrun⟩

/-- Settles O53: the two operations run to DONE one after the other, and `Dec` undoes `Enc` under the one MK. -/
theorem chainedOperations : Obligations.ChainedOperations := by
  intro s hp hL hkey ha
  obtain ⟨rc, lp, r, n, henc⟩ := write_start_planned_run .enc hp hL hkey ha
  obtain ⟨_, _, _, _, hdec⟩ := write_start_planned_run .dec (rest := [])
    (s := { s with
      agenda := .write 0 (bitsOf s.cfg.busw 3) :: .replicate s.cfg.nl .engine,
      st := enc s.cfg s.mk s.st, rc := rc, lp := lp, dir := .enc, phase := .done, ecode := .none,
      rdata := r, draws := n })
    nofun hL hkey (congrArg _ (List.append_nil _).symm)
  have hsteps := stepsTo_trans henc hdec
  rw [← Nat.two_mul, Nat.mul_succ] at hsteps
  exact ⟨_, hsteps, rfl, rfl, congrArg val (dec_enc s.cfg s.mk s.st), rfl⟩

/-- In IDLE with no error recorded and DIR at encrypt STATUS is zero (R27, R29). -/
theorem val_statusWord_of_idle {s : State} (hp : s.phase = .idle) (hd : s.dir = .enc)
    (he : s.ecode = .none) : val (statusWord s) = 0 := by
  rw [val_statusWord, hp, hd, he]
  rfl

/-- Settles O25: the move is `assertReset`, which leaves its two draws in ST and MK. -/
theorem resetMove : Obligations.ResetMove := fun _ _ ha =>
  ⟨_, _, _, _, step_of_move ha, rfl, val_statusWord_of_idle rfl rfl rfl⟩

end Sys2Proof.Machine
